-- ==== Sys2Proof/Word.lean ====
section
/-! DEFINITION. The word types of the machine (spec 00_scope.md R6, 10_state.md R10).
A register, an address and the program counter are 32-bit vectors, memory is made of bytes,
a general register is named by its number 0 to 15. -/

namespace Sys2Proof

/-- XLEN, PCLEN and ALEN are 32 (R5, R10, R13; log 1). -/
abbrev Word := BitVec 32

/-- A byte of memory or of an encoding (R6). -/
abbrev Byte := BitVec 8

/-- The number of a general register, R0 to R15 (R10). -/
abbrev Reg := Fin 16

/-- R14, the stack pointer (R11). -/
abbrev Reg.sp : Reg := 14

/-- R15, the subroutine return pointer (R11). -/
abbrev Reg.srp : Reg := 15

end Sys2Proof
end

