-- ==== Sys2Proof/Config.lean ====
section
/-! DEFINITION. What a platform fixes for the machine (spec 00_scope.md R5, 10_state.md R23), as plain
data, and the free values: constants without a body, of which no proof can see the value.
The meaning of each parameter is in Sys2Proof/Machine and in Sys2Proof/Decode.lean. -/

namespace Sys2Proof

/-- The condition-code register: eight one-bit flags (10_state.md R14). -/
structure CC where
  n   : Bool
  v   : Bool
  z   : Bool
  c   : Bool
  c8  : Bool
  z8  : Bool
  c16 : Bool
  z16 : Bool
  deriving DecidableEq, Repr, Inhabited

/-- The three access widths: byte, word and double word, `.b`, `.w` and `.l`, 1, 2 and
4 bytes (20_memory.md R35). -/
inductive Width
  | byte
  | word
  | dword
  deriving DecidableEq, Repr

/-- MEM_ORG: separate arrays for instructions and data, or one (20_memory.md R30). -/
inductive MemOrg
  | harvard
  | unified
  deriving DecidableEq, Repr

/-- LOAD_EXT: how a `.b` or `.w` load fills the high bits (20_memory.md R36). -/
inductive LoadExt
  | zero
  | sign
  deriving DecidableEq, Repr

/-- IMM5_MODE: the two readings of the five-byte immediate (30_encoding.md R60). -/
inductive Imm5Mode
  | last4
  | shift7
  deriving DecidableEq, Repr

/-- What MemMap says of an aligned data address; `absent` is the spec's `none` (20_memory.md R41). -/
inductive AddrClass
  | ram
  | device
  | absent
  deriving DecidableEq, Repr

/-- One line of the platform's address map: the addresses `base`, …, `base + size - 1`, modulo 2^32. -/
structure Region where
  base : Word
  size : Nat
  kind : AddrClass
  deriving DecidableEq, Repr

/-- CC_PACK and CC_UNPACK (60_exceptions.md R186): the spec's suggested layout, or another pair of
functions, named by a number, of which nothing is known but that CC_UNPACK(CC_PACK(cc)) = cc (`ccPack` and
`ccUnpack` of Machine/Flags.lean use `Config.ccPackFree` and `Config.ccUnpackFree` only where they have that
property). -/
inductive CcCodec
  | suggested
  | other (k : Nat)
  deriving DecidableEq, Repr

/-- The parameters of the machine, fixed for a run (R5, R23). -/
structure Config where
  memOrg    : MemOrg
  memMap    : List Region
  resetPc   : Word
  intVector : Word
  imm5      : Imm5Mode
  loadExt   : LoadExt
  ccCodec   : CcCodec
  deriving DecidableEq, Repr

/-- The value the environment supplies to the `k`-th read of a device address: any value
(20_memory.md R41, 93_implementation_defined.md I11; log 19). -/
opaque Config.deviceInput : Nat → Word

/-- CC_PACK of the layout named `k`: any function, used by `ccPack` where the pair
round-trips (60_exceptions.md R186; log 14). -/
opaque Config.ccPackFree : Nat → CC → Word

/-- CC_UNPACK of the layout named `k`: any function, used by `ccUnpack` where the pair
round-trips (60_exceptions.md R186; log 14). -/
opaque Config.ccUnpackFree : Nat → Word → CC

end Sys2Proof
end

