-- ==== Sys2Proof/Syntax.lean ====
section
/-! DEFINITION. The instructions as data: one constructor for each of the 65 rows of
spec/opcode_table.json, the five rows of reserved encodings among them (30_encoding.md R65, R70, R71). -/

namespace Sys2Proof

/-- A variable-size immediate: how many bytes encode it (1 to 5) and its 32-bit value, already sign
extended (30_encoding.md R58 to R61). The byte count is kept because `len`, and so `next`, depends on
it: the padded `80 05` and the plain `05` are different immediates of the same value (R61, R120; log 26). -/
structure Imm where
  size  : Nat
  value : Word
  deriving DecidableEq, Repr

/-- The instruction set (R70). `x` is the number of Rx, `n` the highest register of a pushed or popped
range or the 4-bit immediate of opcode 9. -/
inductive Instr
  -- first level (R52)
  /-- `Rx = A`, R80 -/
  | rxFromA (x : Reg)
  /-- `A = Rx`, R81 -/
  | aFromRx (x : Reg)
  /-- `Rx = M[A+nn].l`, R91 -/
  | ldOffL (x : Reg) (imm : Imm)
  /-- `Rx = M[A].l`, R92 -/
  | ldAccL (x : Reg)
  /-- `A = M[Rx].l`, R93 -/
  | ldRegL (x : Reg)
  /-- `M[A+nn].l = Rx`, R94 -/
  | stOffL (x : Reg) (imm : Imm)
  /-- `M[A].l = Rx`, R95 -/
  | stAccL (x : Reg)
  /-- `M[Rx].l = A`, R96 -/
  | stRegL (x : Reg)
  /-- `Rx = sex(nn)`, R82 -/
  | rxImm (x : Reg) (imm : Imm)
  /-- `A = sex(n)`, R83 -/
  | aImm (n : BitVec 4)
  -- the jumps (R53)
  /-- `j #nn`, R121 -/
  | j (imm : Imm)
  /-- `jlt #nn`, R122 -/
  | jlt (imm : Imm)
  /-- `jge #nn`, R123 -/
  | jge (imm : Imm)
  /-- `jlo #nn`, R124 -/
  | jlo (imm : Imm)
  /-- `jhs #nn`, R125 -/
  | jhs (imm : Imm)
  /-- `jz #nn`, R126 -/
  | jz (imm : Imm)
  /-- `jnz #nn`, R127 -/
  | jnz (imm : Imm)
  /-- `jlo.b #nn`, R128 -/
  | jloB (imm : Imm)
  /-- `jhs.b #nn`, R129 -/
  | jhsB (imm : Imm)
  /-- `jz.b #nn`, R130 -/
  | jzB (imm : Imm)
  /-- `jnz.b #nn`, R131 -/
  | jnzB (imm : Imm)
  /-- `jlo.w #nn`, R132 -/
  | jloW (imm : Imm)
  /-- `jhs.w #nn`, R133 -/
  | jhsW (imm : Imm)
  /-- `jz.w #nn`, R134 -/
  | jzW (imm : Imm)
  /-- `jnz.w #nn`, R135 -/
  | jnzW (imm : Imm)
  /-- `jsr #nn`, R136 -/
  | jsr (imm : Imm)
  -- first level, arithmetic (R52)
  /-- `A = A + Rx`, R141 -/
  | addA (x : Reg)
  /-- `A = A - Rx`, R142 -/
  | subA (x : Reg)
  /-- `A = A & Rx`, R143 -/
  | andA (x : Reg)
  /-- `A = A | Rx`, R144 -/
  | orA (x : Reg)
  -- second level (R54, R55)
  /-- `not A`, R147 -/
  | notA
  /-- `lsl A`, R148 -/
  | lslA
  /-- `lsr A`, R149 -/
  | lsrA
  /-- `asr A`, R150 -/
  | asrA
  /-- `push R0..Rn`, R161 -/
  | pushR (n : Reg)
  /-- `pop R0..Rn`, R162 -/
  | popR (n : Reg)
  /-- `push srp`, R163 -/
  | pushSrp
  /-- `pop-a`, R164 -/
  | popA
  -- third level (R56)
  /-- `adc`, R146 -/
  | adcA (x : Reg)
  /-- `Rx = M[A+nn].b`, R97 -/
  | ldOffB (x : Reg) (imm : Imm)
  /-- `Rx = M[A].b`, R98 -/
  | ldAccB (x : Reg)
  /-- `A = M[Rx].b`, R99 -/
  | ldRegB (x : Reg)
  /-- `M[A+nn].b = Rx`, R100 -/
  | stOffB (x : Reg) (imm : Imm)
  /-- `M[A].b = Rx`, R101 -/
  | stAccB (x : Reg)
  /-- `M[Rx].b = A`, R102 -/
  | stRegB (x : Reg)
  -- fourth level (R57)
  /-- `ei`, R170 -/
  | ei
  /-- `di`, R171 -/
  | di
  -- third level, continued (R56)
  /-- `A = A xor Rx`, R145 -/
  | xorA (x : Reg)
  /-- `Rx = M[A+nn].w`, R103 -/
  | ldOffW (x : Reg) (imm : Imm)
  /-- `Rx = M[A].w`, R104 -/
  | ldAccW (x : Reg)
  /-- `A = M[Rx].w`, R105 -/
  | ldRegW (x : Reg)
  /-- `M[A+nn].w = Rx`, R106 -/
  | stOffW (x : Reg) (imm : Imm)
  /-- `M[A].w = Rx`, R107 -/
  | stAccW (x : Reg)
  /-- `M[Rx].w = A`, R108 -/
  | stRegW (x : Reg)
  -- second level, continued (R54)
  /-- `reti`, R172 -/
  | reti
  /-- `maskb A`, R151 -/
  | maskbA
  /-- `maskw A`, R152 -/
  | maskwA
  /-- `sexb A`, R153 -/
  | sexbA
  /-- `sexw A`, R154 -/
  | sexwA
  /-- `j-A`, R137 -/
  | jA
  -- the rows of reserved encodings (R65, R66)
  /-- byte FF, second-level opcode 15, "unused" -/
  | resSecond15
  /-- bytes F8 1r, third-level opcode 1, "unused"; `r` is the low nibble of byte 1 -/
  | resThird1 (r : BitVec 4)
  /-- bytes F8 8o with o ≥ 2, fourth-level opcodes 2 to 15, "unused" -/
  | resFourth (o : BitVec 4)
  /-- bytes F4 hn with h ≠ 0 -/
  | resPush (h n : BitVec 4)
  /-- bytes F5 hn with h ≠ 0 -/
  | resPop (h n : BitVec 4)
  deriving DecidableEq, Repr

end Sys2Proof
end

