-- ==== Sys2Proof/WellFormed.lean ====
section
/-! DEFINITION. Which instructions as data are instructions of the hardware: the immediate has 1 to 5
bytes and a value those bytes can hold (30_encoding.md R59 to R61), a reserved row holds only the field
values its constraint leaves it (R65, R71). -/

namespace Sys2Proof

/-- `v` is the sign extension of its low `k` bits (R59: `imm = sext_32(raw)`). -/
def fitsSigned (k : Nat) (v : Word) : Bool :=
  decide ((v.extractLsb' 0 k).signExtend 32 = v)

/-- 1 to 4 bytes hold a sign-extended value of 7, 14, 21 or 28 bits, 5 bytes hold every value (R61). -/
def Imm.wf (imm : Imm) : Bool :=
  match imm.size with
  | 1 => fitsSigned 7 imm.value
  | 2 => fitsSigned 14 imm.value
  | 3 => fitsSigned 21 imm.value
  | 4 => fitsSigned 28 imm.value
  | 5 => true
  | _ => false

def Instr.wf : Instr → Bool
  | .rxFromA _ => true
  | .aFromRx _ => true
  | .ldOffL _ imm => imm.wf
  | .ldAccL _ => true
  | .ldRegL _ => true
  | .stOffL _ imm => imm.wf
  | .stAccL _ => true
  | .stRegL _ => true
  | .rxImm _ imm => imm.wf
  | .aImm _ => true
  | .j imm => imm.wf
  | .jlt imm => imm.wf
  | .jge imm => imm.wf
  | .jlo imm => imm.wf
  | .jhs imm => imm.wf
  | .jz imm => imm.wf
  | .jnz imm => imm.wf
  | .jloB imm => imm.wf
  | .jhsB imm => imm.wf
  | .jzB imm => imm.wf
  | .jnzB imm => imm.wf
  | .jloW imm => imm.wf
  | .jhsW imm => imm.wf
  | .jzW imm => imm.wf
  | .jnzW imm => imm.wf
  | .jsr imm => imm.wf
  | .addA _ => true
  | .subA _ => true
  | .andA _ => true
  | .orA _ => true
  | .notA => true
  | .lslA => true
  | .lsrA => true
  | .asrA => true
  | .pushR _ => true
  | .popR _ => true
  | .pushSrp => true
  | .popA => true
  | .adcA _ => true
  | .ldOffB _ imm => imm.wf
  | .ldAccB _ => true
  | .ldRegB _ => true
  | .stOffB _ imm => imm.wf
  | .stAccB _ => true
  | .stRegB _ => true
  | .ei => true
  | .di => true
  | .xorA _ => true
  | .ldOffW _ imm => imm.wf
  | .ldAccW _ => true
  | .ldRegW _ => true
  | .stOffW _ imm => imm.wf
  | .stAccW _ => true
  | .stRegW _ => true
  | .reti => true
  | .maskbA => true
  | .maskwA => true
  | .sexbA => true
  | .sexwA => true
  | .jA => true
  | .resSecond15 => true
  | .resThird1 _ => true
  | .resFourth o => decide (2 ≤ o.toNat)
  | .resPush h _ => decide (h ≠ 0)
  | .resPop h _ => decide (h ≠ 0)

end Sys2Proof
end

