-- ==== Sys2Proof/Decode.lean ====
section
/-! DEFINITION. From bytes to an instruction (30_encoding.md R50 to R65) and, after it, from an
instruction to its bytes. The decoder is total: any list of bytes gives an instruction and the bytes
after it, or a rejection by name. The reserved encodings that are rows of the opcode table decode to
their own constructors (R65; log 11); malformed immediates are no rows (R71) and are rejected here. -/

namespace Sys2Proof

/-- Why a list of bytes is no instruction. -/
inductive DecodeError
  /-- The list ends inside the instruction. -/
  | truncated
  /-- The fifth immediate byte has bit 7 set: no sixth byte exists (R60, R65; log 10). -/
  | fifthByteContinues
  /-- IMM5_MODE = last4 and the fifth immediate byte has one of bits 6:4 set (R60, R65; log 10). -/
  | fifthByteHighBits
  deriving DecidableEq, Repr

/-! ## The fields of a byte (R6, R51) -/

/-- msn: bits 7:4. -/
def msn (b : Byte) : BitVec 4 := b.extractLsb' 4 4

/-- lsn: bits 3:0. -/
def lsn (b : Byte) : BitVec 4 := b.extractLsb' 0 4

/-- The low nibble as a register number (R51, R55, R56). -/
def regField (b : Byte) : Reg := (lsn b).toFin

/-- Bits 6:0 of an immediate byte, its seven value bits (R59). -/
def low7 (b : Byte) : BitVec 7 := b.extractLsb' 0 7

/-- Bit 7 of an immediate byte: another byte follows (R59). -/
def continues (b : Byte) : Bool := b.getLsbD 7

/-! ## The variable-size immediate (R58 to R61) -/

/-- The value of a five-byte immediate, or why it is malformed (R60; log 9, log 10). -/
def imm5Value (m : Imm5Mode) (b1 b2 b3 b4 b5 : Byte) : Except DecodeError Word :=
  if continues b5 then .error .fifthByteContinues
  else match m with
    | .last4 =>
      if b5.extractLsb' 4 3 = 0 then .ok (low7 b1 ++ low7 b2 ++ low7 b3 ++ low7 b4 ++ lsn b5)
      else .error .fifthByteHighBits
    | .shift7 => .ok (lsn b1 ++ low7 b2 ++ low7 b3 ++ low7 b4 ++ low7 b5)

/-- Reads the immediate at the head of the list (R59, R60). -/
def decodeImm (m : Imm5Mode) : List Byte → Except DecodeError (Imm × List Byte)
  | [] => .error .truncated
  | b1 :: t1 =>
    if continues b1 then
      match t1 with
      | [] => .error .truncated
      | b2 :: t2 =>
        if continues b2 then
          match t2 with
          | [] => .error .truncated
          | b3 :: t3 =>
            if continues b3 then
              match t3 with
              | [] => .error .truncated
              | b4 :: t4 =>
                if continues b4 then
                  match t4 with
                  | [] => .error .truncated
                  | b5 :: t5 =>
                    match imm5Value m b1 b2 b3 b4 b5 with
                    | .ok v => .ok (⟨5, v⟩, t5)
                    | .error e => .error e
                else .ok (⟨4, (low7 b1 ++ low7 b2 ++ low7 b3 ++ low7 b4).signExtend 32⟩, t4)
            else .ok (⟨3, (low7 b1 ++ low7 b2 ++ low7 b3).signExtend 32⟩, t3)
        else .ok (⟨2, (low7 b1 ++ low7 b2).signExtend 32⟩, t2)
    else .ok (⟨1, (low7 b1).signExtend 32⟩, t1)

/-- An instruction that ends with an immediate: the rest of it is read from the list. -/
def withImm (m : Imm5Mode) (mk : Imm → Instr) (bs : List Byte) :
    Except DecodeError (Instr × List Byte) :=
  match decodeImm m bs with
  | .ok (imm, rest) => .ok (mk imm, rest)
  | .error e => .error e

/-! ## The opcode levels -/

/-- Which jump the low nibble of byte 0 selects (R53); all sixteen values are assigned. -/
def jumpOf (f : BitVec 4) (imm : Imm) : Instr :=
  match f.toNat with
  | 0 => .j imm
  | 1 => .jlt imm
  | 2 => .jge imm
  | 3 => .jlo imm
  | 4 => .jhs imm
  | 5 => .jz imm
  | 6 => .jnz imm
  | 7 => .jloB imm
  | 8 => .jhsB imm
  | 9 => .jzB imm
  | 10 => .jnzB imm
  | 11 => .jloW imm
  | 12 => .jhsW imm
  | 13 => .jzW imm
  | 14 => .jnzW imm
  | _ => .jsr imm

/-- Fourth level, byte 1 = 8o (R57). -/
def fourthLevel (o : BitVec 4) : Instr :=
  match o.toNat with
  | 0 => .ei
  | 1 => .di
  | _ => .resFourth o

/-- Third level, after byte 0 = F8 (R56): `b1` is byte 1, `bs` what follows it. -/
def thirdLevel (m : Imm5Mode) (b1 : Byte) (bs : List Byte) :
    Except DecodeError (Instr × List Byte) :=
  let x := regField b1
  match (msn b1).toNat with
  | 0 => .ok (.adcA x, bs)
  | 1 => .ok (.resThird1 (lsn b1), bs)
  | 2 => withImm m (.ldOffB x) bs
  | 3 => .ok (.ldAccB x, bs)
  | 4 => .ok (.ldRegB x, bs)
  | 5 => withImm m (.stOffB x) bs
  | 6 => .ok (.stAccB x, bs)
  | 7 => .ok (.stRegB x, bs)
  | 8 => .ok (fourthLevel (lsn b1), bs)
  | 9 => .ok (.xorA x, bs)
  | 10 => withImm m (.ldOffW x) bs
  | 11 => .ok (.ldAccW x, bs)
  | 12 => .ok (.ldRegW x, bs)
  | 13 => withImm m (.stOffW x) bs
  | 14 => .ok (.stAccW x, bs)
  | _ => .ok (.stRegW x, bs)

/-- Byte 1 of `push R0..Rn`: its high nibble is drawn as zero (R55, R65). -/
def pushList (b1 : Byte) : Instr :=
  if msn b1 = 0 then .pushR (regField b1) else .resPush (msn b1) (lsn b1)

/-- Byte 1 of `pop R0..Rn` (R55, R65). -/
def popList (b1 : Byte) : Instr :=
  if msn b1 = 0 then .popR (regField b1) else .resPop (msn b1) (lsn b1)

/-- Second level, byte 0 = Ff (R54). -/
def secondLevel (m : Imm5Mode) (f : BitVec 4) (bs : List Byte) :
    Except DecodeError (Instr × List Byte) :=
  match f.toNat with
  | 0 => .ok (.notA, bs)
  | 1 => .ok (.lslA, bs)
  | 2 => .ok (.lsrA, bs)
  | 3 => .ok (.asrA, bs)
  | 4 => match bs with
    | [] => .error .truncated
    | b1 :: t => .ok (pushList b1, t)
  | 5 => match bs with
    | [] => .error .truncated
    | b1 :: t => .ok (popList b1, t)
  | 6 => .ok (.pushSrp, bs)
  | 7 => .ok (.popA, bs)
  | 8 => match bs with
    | [] => .error .truncated
    | b1 :: t => thirdLevel m b1 t
  | 9 => .ok (.reti, bs)
  | 10 => .ok (.maskbA, bs)
  | 11 => .ok (.maskwA, bs)
  | 12 => .ok (.sexbA, bs)
  | 13 => .ok (.sexwA, bs)
  | 14 => .ok (.jA, bs)
  | _ => .ok (.resSecond15, bs)

/-- Decoding (R64): the instruction at the head of the list and the bytes after it. -/
def decode (m : Imm5Mode) : List Byte → Except DecodeError (Instr × List Byte)
  | [] => .error .truncated
  | b0 :: bs =>
    let x := regField b0
    match (msn b0).toNat with
    | 0 => .ok (.rxFromA x, bs)
    | 1 => .ok (.aFromRx x, bs)
    | 2 => withImm m (.ldOffL x) bs
    | 3 => .ok (.ldAccL x, bs)
    | 4 => .ok (.ldRegL x, bs)
    | 5 => withImm m (.stOffL x) bs
    | 6 => .ok (.stAccL x, bs)
    | 7 => .ok (.stRegL x, bs)
    | 8 => withImm m (.rxImm x) bs
    | 9 => .ok (.aImm (lsn b0), bs)
    | 10 => withImm m (jumpOf (lsn b0)) bs
    | 11 => .ok (.addA x, bs)
    | 12 => .ok (.subA x, bs)
    | 13 => .ok (.andA x, bs)
    | 14 => .ok (.orA x, bs)
    | _ => secondLevel m (lsn b0) bs

/-! ## Lengths (R50, R63) -/

/-- Formats F1, F1N and S: one opcode byte. -/
def lenF1 : Nat := 1

/-- Formats F1I and J: one opcode byte and the immediate. -/
def lenF1I (imm : Imm) : Nat := 1 + imm.size

/-- Formats SM, T and Q: two opcode bytes. -/
def lenT : Nat := 2

/-- Format TI: two opcode bytes and the immediate. -/
def lenTI (imm : Imm) : Nat := 2 + imm.size

/-- `len` of R7, the number of bytes of the instruction (R63). The length of a reserved encoding is not
defined (R66); for those rows this counts the opcode bytes that select the row. -/
def Instr.length : Instr → Nat
  | .rxFromA _ | .aFromRx _ => lenF1
  | .ldOffL _ imm | .stOffL _ imm | .rxImm _ imm => lenF1I imm
  | .ldAccL _ | .ldRegL _ | .stAccL _ | .stRegL _ | .aImm _ => lenF1
  | .j imm | .jlt imm | .jge imm | .jlo imm | .jhs imm | .jz imm | .jnz imm | .jloB imm | .jhsB imm
  | .jzB imm | .jnzB imm | .jloW imm | .jhsW imm | .jzW imm | .jnzW imm | .jsr imm => lenF1I imm
  | .addA _ | .subA _ | .andA _ | .orA _ => lenF1
  | .notA | .lslA | .lsrA | .asrA | .pushSrp | .popA => lenF1
  | .reti | .maskbA | .maskwA | .sexbA | .sexwA | .jA | .resSecond15 => lenF1
  | .pushR _ | .popR _ | .resPush _ _ | .resPop _ _ => lenT
  | .adcA _ | .ldAccB _ | .ldRegB _ | .stAccB _ | .stRegB _ | .xorA _ => lenT
  | .ldAccW _ | .ldRegW _ | .stAccW _ | .stRegW _ => lenT
  | .ei | .di | .resThird1 _ | .resFourth _ => lenT
  | .ldOffB _ imm | .stOffB _ imm | .ldOffW _ imm | .stOffW _ imm => lenTI imm

/-! ## The encoder -/

/-- An opcode byte from its two nibbles (R51). -/
def opByte (hi lo : BitVec 4) : Byte := hi ++ lo

/-- A register number as the register field. -/
def regNib (x : Reg) : BitVec 4 := BitVec.ofFin x

/-- An immediate byte that another one follows (R59). -/
def moreByte (g : BitVec 7) : Byte := 1#1 ++ g

/-- The last immediate byte (R59). -/
def lastByte (g : BitVec 7) : Byte := 0#1 ++ g

/-- The `size` bytes of an immediate, most significant group first (R59, R60). -/
def encodeImm (m : Imm5Mode) (imm : Imm) : List Byte :=
  let v := imm.value
  match imm.size with
  | 1 => [lastByte (v.extractLsb' 0 7)]
  | 2 => [moreByte (v.extractLsb' 7 7), lastByte (v.extractLsb' 0 7)]
  | 3 => [moreByte (v.extractLsb' 14 7), moreByte (v.extractLsb' 7 7), lastByte (v.extractLsb' 0 7)]
  | 4 => [moreByte (v.extractLsb' 21 7), moreByte (v.extractLsb' 14 7), moreByte (v.extractLsb' 7 7),
          lastByte (v.extractLsb' 0 7)]
  | _ => match m with
    | .last4 => [moreByte (v.extractLsb' 25 7), moreByte (v.extractLsb' 18 7),
        moreByte (v.extractLsb' 11 7), moreByte (v.extractLsb' 4 7), lastByte (0#3 ++ v.extractLsb' 0 4)]
    | .shift7 => [moreByte (0#3 ++ v.extractLsb' 28 4), moreByte (v.extractLsb' 21 7),
        moreByte (v.extractLsb' 14 7), moreByte (v.extractLsb' 7 7), lastByte (v.extractLsb' 0 7)]

/-- Format F1: opcode `op`, register field `x`. -/
def encF1 (op : BitVec 4) (x : Reg) : List Byte := [opByte op (regNib x)]

/-- Format F1I. -/
def encF1I (m : Imm5Mode) (op : BitVec 4) (x : Reg) (imm : Imm) : List Byte :=
  opByte op (regNib x) :: encodeImm m imm

/-- Format J: jump opcode `f`. -/
def encJ (m : Imm5Mode) (f : BitVec 4) (imm : Imm) : List Byte := opByte 10 f :: encodeImm m imm

/-- Format S: second-level opcode `f`. -/
def encS (f : BitVec 4) : List Byte := [opByte 15 f]

/-- Formats SM, T and Q: byte 0 = F`f`, byte 1 = `hi` `lo`. -/
def encT (f hi lo : BitVec 4) : List Byte := [opByte 15 f, opByte hi lo]

/-- Format TI: third-level opcode `op`. -/
def encTI (m : Imm5Mode) (op : BitVec 4) (x : Reg) (imm : Imm) : List Byte :=
  opByte 15 8 :: opByte op (regNib x) :: encodeImm m imm

/-- The bytes of an instruction, from the tables of R52 to R57. -/
def encode (m : Imm5Mode) : Instr → List Byte
  | .rxFromA x => encF1 0 x
  | .aFromRx x => encF1 1 x
  | .ldOffL x imm => encF1I m 2 x imm
  | .ldAccL x => encF1 3 x
  | .ldRegL x => encF1 4 x
  | .stOffL x imm => encF1I m 5 x imm
  | .stAccL x => encF1 6 x
  | .stRegL x => encF1 7 x
  | .rxImm x imm => encF1I m 8 x imm
  | .aImm n => [opByte 9 n]
  | .j imm => encJ m 0 imm
  | .jlt imm => encJ m 1 imm
  | .jge imm => encJ m 2 imm
  | .jlo imm => encJ m 3 imm
  | .jhs imm => encJ m 4 imm
  | .jz imm => encJ m 5 imm
  | .jnz imm => encJ m 6 imm
  | .jloB imm => encJ m 7 imm
  | .jhsB imm => encJ m 8 imm
  | .jzB imm => encJ m 9 imm
  | .jnzB imm => encJ m 10 imm
  | .jloW imm => encJ m 11 imm
  | .jhsW imm => encJ m 12 imm
  | .jzW imm => encJ m 13 imm
  | .jnzW imm => encJ m 14 imm
  | .jsr imm => encJ m 15 imm
  | .addA x => encF1 11 x
  | .subA x => encF1 12 x
  | .andA x => encF1 13 x
  | .orA x => encF1 14 x
  | .notA => encS 0
  | .lslA => encS 1
  | .lsrA => encS 2
  | .asrA => encS 3
  | .pushR n => encT 4 0 (regNib n)
  | .popR n => encT 5 0 (regNib n)
  | .pushSrp => encS 6
  | .popA => encS 7
  | .adcA x => encT 8 0 (regNib x)
  | .ldOffB x imm => encTI m 2 x imm
  | .ldAccB x => encT 8 3 (regNib x)
  | .ldRegB x => encT 8 4 (regNib x)
  | .stOffB x imm => encTI m 5 x imm
  | .stAccB x => encT 8 6 (regNib x)
  | .stRegB x => encT 8 7 (regNib x)
  | .ei => encT 8 8 0
  | .di => encT 8 8 1
  | .xorA x => encT 8 9 (regNib x)
  | .ldOffW x imm => encTI m 10 x imm
  | .ldAccW x => encT 8 11 (regNib x)
  | .ldRegW x => encT 8 12 (regNib x)
  | .stOffW x imm => encTI m 13 x imm
  | .stAccW x => encT 8 14 (regNib x)
  | .stRegW x => encT 8 15 (regNib x)
  | .reti => encS 9
  | .maskbA => encS 10
  | .maskwA => encS 11
  | .sexbA => encS 12
  | .sexwA => encS 13
  | .jA => encS 14
  | .resSecond15 => encS 15
  | .resThird1 r => encT 8 1 r
  | .resFourth o => encT 8 8 o
  | .resPush h n => encT 4 h n
  | .resPop h n => encT 5 h n

/-! ## The words of the opcode table (R71) -/

/-- Byte 0 of the instructions with a second opcode byte (R50). -/
def leadsTwo (b : Byte) : Bool := decide (b = 0xF4#8 ∨ b = 0xF5#8 ∨ b = 0xF8#8)

/-- The `k` lowest bytes of `w`, the least significant first. -/
def lowBytes : Nat → Nat → List Byte
  | 0, _ => []
  | k + 1, w => BitVec.ofNat 8 w :: lowBytes k (w / 256)

/-- The seven bytes (the longest instruction, R50) that a word of the opcode table stands for. A row of
two opcode bytes has byte 0 in bits 15:8 ("byte 0 being the high byte", R71); a word that has no
two-byte opcode there is read with byte 0 in its low byte (log 27). -/
def tableBytes (nbits w : Nat) : List Byte :=
  let v := w % 2 ^ nbits
  let hi := BitVec.ofNat 8 (v / 256)
  if nbits = 16 ∧ leadsTwo hi then hi :: BitVec.ofNat 8 v :: lowBytes 5 0 else lowBytes 7 v

/-- The instruction the decoder reads from a row's word, with operand bytes of zero. -/
def decodeTableWord (nbits w : Nat) : Option Instr :=
  match decode .last4 (tableBytes nbits w) with
  | .ok (i, _) => some i
  | .error _ => none

end Sys2Proof
end

