-- ==== Sys2Proof/Machine/Defaults.lean ====
section
/-! DEFINITION. The values State.reset takes where the spec states none: the spec's suggested defaults of
the open parameters (00_scope.md R5) and the values the assumption log names. No statement about every
state rests on them. -/

namespace Sys2Proof.Machine

/-- The suggested default of MemMap for tests: all 2^32 data addresses are `ram` (D3; log 3). -/
def suggestedMap : List Region := [⟨0, 2 ^ 32, .ram⟩]

/-- The defaults of R5; RESET_PC and INT_VECTOR have none there, and take the values that the spec's
test programs use as a convention (95_test_vectors.md part 3; log 8). -/
def suggestedConfig : Config where
  memOrg    := .harvard
  memMap    := suggestedMap
  resetPc   := 0
  intVector := 0x40
  imm5      := .last4
  loadExt   := .zero
  ccCodec   := .suggested

/-- R0 to R15 and A after reset: the source gives no value (R22; DESIGN CHOICE, log 7). -/
def resetWord : Word := 0

/-- The flags after reset: the source gives no value (R22; DESIGN CHOICE, log 7). -/
def resetCC : CC := ⟨false, false, false, false, false, false, false, false⟩

end Sys2Proof.Machine
end

