-- ==== Sys2Proof/Machine/Memory.lean ====
section
/-! DEFINITION. A memory as data: (address, byte) pairs with strictly rising addresses (10_state.md R20).
`u` is what an unlisted address reads as: `some 0` for data memory (log 6), `none`, no byte at all, for
instruction memory (log 4). In the canonical form no entry equals what an unlisted address reads as, so
equal memories are equal lists. -/

namespace Sys2Proof.Machine

abbrev Memory := List Host.Cell

/-- What an unlisted address of data memory reads as (DESIGN CHOICE, log 6). -/
def unlistedData : Option Byte := some 0

/-- What an unlisted address of instruction memory reads as: no instruction memory is there (log 4). -/
def unlistedCode : Option Byte := none

namespace Memory

/-- The byte listed at an address, if one is. -/
def find : Memory → Nat → Option Byte
  | [], _ => none
  | (k, b) :: m, a => if k = a then some b else find m a

/-- The byte at an address, `u` where nothing is listed. -/
def read (u : Option Byte) (m : Memory) (a : Nat) : Option Byte := (m.find a).or u

/-- Takes out what is listed at an address. -/
def remove (m : Memory) (a : Nat) : Memory := m.filter (fun c => c.1 != a)

/-- Puts an entry before the first one with a higher address. -/
def place : Memory → Nat → Byte → Memory
  | [], a, b => [(a, b)]
  | (k, c) :: m, a, b => if a < k then (a, b) :: (k, c) :: m else (k, c) :: place m a b

/-- Writes a byte; where the byte is what an unlisted address reads as, nothing is listed after. -/
def write (u : Option Byte) (m : Memory) (a : Nat) (b : Byte) : Memory :=
  if u = some b then m.remove a else (m.remove a).place a b

/-- Every address is at least `lo`, below 2^32, and they rise strictly; no entry equals `u`. -/
def wfFrom (u : Option Byte) : Nat → Memory → Bool
  | _, [] => true
  | lo, (k, b) :: m => decide (lo ≤ k) && decide (k < 2 ^ 32) && decide (u ≠ some b) && wfFrom u (k + 1) m

/-- The canonical form. -/
def wf (u : Option Byte) (m : Memory) : Bool := wfFrom u 0 m

end Memory

end Sys2Proof.Machine
end

