-- ==== Sys2Proof/Machine/State.lean ====
section
/-! DEFINITION. The state of the machine (10_state.md R10 to R23) as plain data, why a step can stop, and
the state after reset. -/

namespace Sys2Proof.Machine

/-- One output event: a store to a device address (20_memory.md R41). `addr` is the aligned address,
`value` holds the stored bits, zero above the width. -/
structure DeviceWrite where
  addr  : Word
  width : Width
  value : Word
  deriving DecidableEq, Repr

structure State where
  /-- R0 to R15 (R10) -/
  regs : Vector Word 16
  /-- the accumulator (R12) -/
  a : Word
  /-- the program counter (R13) -/
  pc : Word
  /-- the condition codes (R14) -/
  cc : CC
  /-- IE, interrupts are enabled (R17) -/
  ie : Bool
  /-- IRQ: whether the environment presents a request at this boundary, at the next one, and so on; no
  request beyond the end of the list (R18, R182; log 20) -/
  irq : List Bool
  /-- DMem (R20); under MEM_ORG = unified also the memory instructions are fetched from -/
  dmem : Memory
  /-- IMem, the program image of MEM_ORG = harvard (R20, R30) -/
  imem : Memory
  /-- the device writes so far, oldest first (R41) -/
  outputs : List DeviceWrite
  /-- the model's own counter: how many device reads have been made, the index of the next free value
  (log 19) -/
  deviceReads : Nat
  /-- the parameters of the machine, which no step changes (R23; log 29) -/
  cfg : Config
  deriving DecidableEq, Repr

/-- Why the machine stops with a fault: the closed list of 60_exceptions.md R181, less its two optional
reasons (log 5, log 7). Each is safe: the model stops where the hardware may go on. -/
inductive Fault
  /-- Raised by the meaning of an unused opcode: FF; F8 10..1F; F8 82..8F (R66). Safe. -/
  | reservedEncoding
  /-- Raised by the meaning of `push` or `pop` with a non-zero high nibble in byte 1 (R66). Safe. -/
  | badRegisterList
  /-- Raised by the step where the immediate of the instruction at pc is malformed (R60, R66). Safe. -/
  | badImmediate
  /-- Raised by a data access whose aligned address has neither memory nor a device (R41). Safe. -/
  | accessOutsideMemory
  /-- Raised by the step where a byte of the instruction at pc has no instruction memory (R38). Safe. -/
  | fetchOutsideMemory
  deriving DecidableEq, Repr

/-- Why the model has no meaning to give. -/
inductive Refusal
  /-- Raised by exec for an instruction that has no meaning yet. Safe. -/
  | notModelled (mnemonic : String)
  deriving DecidableEq, Repr

/-- The machine right after reset, for a platform's parameters: interrupts are disabled, pc is RESET_PC
(R22, R200, R201); what the source leaves unspecified has the values of log 6, 7, 19 and 20. -/
def State.resetWith (cfg : Config) : State where
  regs        := Vector.replicate 16 resetWord
  a           := resetWord
  pc          := cfg.resetPc
  cc          := resetCC
  ie          := false
  irq         := []
  dmem        := []
  imem        := []
  outputs     := []
  deviceReads := 0
  cfg         := cfg

/-- The machine right after reset, with the suggested parameters. -/
def State.reset : State := State.resetWith suggestedConfig

end Sys2Proof.Machine
end

