-- ==== Sys2Proof/Machine/Flags.lean ====
section
/-! DEFINITION. Every flag computation (10_state.md R14, R15; 43_arithmetic_and_logic.md), the conditions
of the jumps (30_encoding.md R53) and the 4-byte CC slot of the interrupt frame (60_exceptions.md R186). -/

namespace Sys2Proof.Machine

/-- The eight flags after `A = A - Rx`, `a` the old A and `b` the value of Rx (R142). The split of
`n ^ v` into n and v is the spec's decision (D11; log 15). -/
def subFlags (a b : Word) : CC :=
  let r := a - b
  { n   := r.getLsbD 31
    v   := (a.getLsbD 31 != b.getLsbD 31) && (r.getLsbD 31 != a.getLsbD 31)
    z   := decide (r = 0)
    c   := decide (a < b)
    c8  := decide (a.extractLsb' 0 8 < b.extractLsb' 0 8)
    z8  := decide (r.extractLsb' 0 8 = 0)
    c16 := decide (a.extractLsb' 0 16 < b.extractLsb' 0 16)
    z16 := decide (r.extractLsb' 0 16 = 0) }

/-- The 33-bit sum of `adc` (R146): A, Rx and the carry-in. -/
def adcSum (a b : Word) (c : Bool) : BitVec 33 :=
  a.setWidth 33 + b.setWidth 33 + (BitVec.ofBool c).setWidth 33

/-- `CC.c <- b`, the other seven flags unchanged (R15). -/
def withC (cc : CC) (b : Bool) : CC := { cc with c := b }

/-! ## The conditions of the jumps (R53) -/

def condLt (cc : CC) : Bool := cc.n ^^ cc.v
def condGe (cc : CC) : Bool := !(cc.n ^^ cc.v)
def condLo (cc : CC) : Bool := cc.c
def condHs (cc : CC) : Bool := !cc.c
def condZ (cc : CC) : Bool := cc.z
def condNz (cc : CC) : Bool := !cc.z
def condLoB (cc : CC) : Bool := cc.c8
def condHsB (cc : CC) : Bool := !cc.c8
def condZB (cc : CC) : Bool := cc.z8
def condNzB (cc : CC) : Bool := !cc.z8
def condLoW (cc : CC) : Bool := cc.c16
def condHsW (cc : CC) : Bool := !cc.c16
def condZW (cc : CC) : Bool := cc.z16
def condNzW (cc : CC) : Bool := !cc.z16

/-! ## The CC slot (R186; log 14) -/

/-- The suggested layout: bit 0 n, 1 v, 2 z, 3 c, 4 c8, 5 z8, 6 c16, 7 z16, bits 31:8 zero. -/
def ccPackSuggested (cc : CC) : Word :=
  0#24 ++ BitVec.ofBool cc.z16 ++ BitVec.ofBool cc.c16 ++ BitVec.ofBool cc.z8 ++ BitVec.ofBool cc.c8 ++
    BitVec.ofBool cc.c ++ BitVec.ofBool cc.z ++ BitVec.ofBool cc.v ++ BitVec.ofBool cc.n

/-- The suggested layout read back; bits 31:8 are ignored. -/
def ccUnpackSuggested (w : Word) : CC where
  n   := w.getLsbD 0
  v   := w.getLsbD 1
  z   := w.getLsbD 2
  c   := w.getLsbD 3
  c8  := w.getLsbD 4
  z8  := w.getLsbD 5
  c16 := w.getLsbD 6
  z16 := w.getLsbD 7

/-- The property R186 requires, of the free pair named `k`: CC_UNPACK(CC_PACK(cc)) = cc for every cc. -/
def freePairRoundTrips (k : Nat) : Bool :=
  decide (∀ n v z c c8 z8 c16 z16 : Bool,
    Config.ccUnpackFree k (Config.ccPackFree k ⟨n, v, z, c, c8, z8, c16, z16⟩) =
      ⟨n, v, z, c, c8, z8, c16, z16⟩)

/-- CC_PACK. A free pair is used where it has the property R186 requires; one that lacks it is no layout of
the hardware, and its number then names the suggested layout. So every pair that R186 admits is a value of
the free pair, and no other pair is ever used. -/
def ccPack : CcCodec → CC → Word
  | .suggested, cc => ccPackSuggested cc
  | .other k, cc => if freePairRoundTrips k then Config.ccPackFree k cc else ccPackSuggested cc

/-- CC_UNPACK, of the same pair as `ccPack`. -/
def ccUnpack : CcCodec → Word → CC
  | .suggested, w => ccUnpackSuggested w
  | .other k, w => if freePairRoundTrips k then Config.ccUnpackFree k w else ccUnpackSuggested w

end Sys2Proof.Machine
end

