-- ==== Sys2Proof/Machine/Ops.lean ====
section
/-! DEFINITION. The named operations over registers and memory that every meaning is written with
(00_scope.md R7), interrupt entry and the return from it, and the fetch of an instruction's bytes. -/

namespace Sys2Proof.Machine

/-- What an operation that may stop answers. -/
abbrev Res (α : Type) := Except Fault α

namespace State

/-! ## Registers (R10, R11) -/

/-- `x[i]`. -/
def reg (s : State) (i : Reg) : Word := s.regs[i]

/-- `x[i] <- v`. -/
def setReg (s : State) (i : Reg) (v : Word) : State := { s with regs := s.regs.set i.val v i.isLt }

/-! ## Addresses (20_memory.md R32, R41) -/

end State

/-- The number of bytes of an access (R35). -/
def bytesOf : Width → Nat
  | .byte => 1
  | .word => 2
  | .dword => 4

/-- The address actually accessed: the low bits are taken as zero (R32; log 23). -/
def align : Width → Word → Word
  | .byte, a => a
  | .word, a => a &&& 0xFFFFFFFE
  | .dword, a => a &&& 0xFFFFFFFC

/-- The low 8, 16 or 32 bits of a word, zero above (R34, R37; log 13). -/
def lowBits : Width → Word → Word
  | .byte, v => (v.extractLsb' 0 8).setWidth 32
  | .word, v => (v.extractLsb' 0 16).setWidth 32
  | .dword, v => v

/-- `ext_32` of R109 applied to what a read of this width gave (R36; log 12). -/
def widen (e : LoadExt) (w : Width) (v : Word) : Word :=
  match e, w with
  | .sign, .byte => (v.extractLsb' 0 8).signExtend 32
  | .sign, .word => (v.extractLsb' 0 16).signExtend 32
  | .sign, .dword => v
  | .zero, _ => lowBits w v

/-- The addresses of a region, modulo 2^32. -/
def regionHolds (r : Region) (a : Word) : Bool := decide ((a - r.base).toNat < r.size)

/-- MemMap: the class of an address is the kind of the first region that holds it (R41; log 3). -/
def classify : List Region → Word → AddrClass
  | [], _ => .absent
  | r :: rs, a => if regionHolds r a then r.kind else classify rs a

namespace State

/-! ## Data memory (R31, R33, R34, R41) -/

/-- `DMem[a]`. -/
def dataByte (s : State) (a : Word) : Byte := (Memory.read unlistedData s.dmem a.toNat).getD 0

/-- `DMem[a] <- b`. -/
def setDataByte (s : State) (a : Word) (b : Byte) : State :=
  { s with dmem := Memory.write unlistedData s.dmem a.toNat b }

/-- The bytes from address `a`, little endian, zero above the width (R31, R33). -/
def loadBytes (s : State) (w : Width) (a : Word) : Word :=
  match w with
  | .byte => (s.dataByte a).setWidth 32
  | .word => (s.dataByte (a + 1) ++ s.dataByte a).setWidth 32
  | .dword => s.dataByte (a + 3) ++ s.dataByte (a + 2) ++ s.dataByte (a + 1) ++ s.dataByte a

/-- The low bytes of `v` to the addresses from `a`, little endian (R31, R34). -/
def storeBytes (s : State) (w : Width) (a v : Word) : State :=
  match w with
  | .byte => s.setDataByte a (v.extractLsb' 0 8)
  | .word => (s.setDataByte a (v.extractLsb' 0 8)).setDataByte (a + 1) (v.extractLsb' 8 8)
  | .dword => (((s.setDataByte a (v.extractLsb' 0 8)).setDataByte (a + 1) (v.extractLsb' 8 8)).setDataByte
      (a + 2) (v.extractLsb' 16 8)).setDataByte (a + 3) (v.extractLsb' 24 8)

/-- The class of the address an access is made on (R41). -/
def classAt (s : State) (w : Width) (addr : Word) : AddrClass := classify s.cfg.memMap (align w addr)

/-- `MemRead(addr, n)` (R33, R41): the value, zero above the width, and the state after the access. A
device answers a free value (log 19). -/
def memRead (s : State) (w : Width) (addr : Word) : Res (Word × State) :=
  match s.classAt w addr with
  | .ram => .ok (s.loadBytes w (align w addr), s)
  | .device => .ok (lowBits w (Config.deviceInput s.deviceReads), { s with deviceReads := s.deviceReads + 1 })
  | .absent => .error .accessOutsideMemory

/-- `MemWrite(addr, n, v)` (R34, R41): a store to a device is an output event and changes no memory. -/
def memWrite (s : State) (w : Width) (addr v : Word) : Res State :=
  match s.classAt w addr with
  | .ram => .ok (s.storeBytes w (align w addr) v)
  | .device => .ok { s with outputs := s.outputs ++ [⟨align w addr, w, lowBits w v⟩] }
  | .absent => .error .accessOutsideMemory

/-! ## The stack (44_stack.md R160) -/

/-- The stack pointer moves by `d`, modulo 2^32. -/
def moveSp (s : State) (d : Word) : State := s.setReg .sp (s.reg .sp + d)

/-- A push of a word: subtract 4 from R14, then write the slot at the new R14. -/
def pushWord (s : State) (v : Word) : Res State := (s.moveSp (-4)).memWrite .dword ((s.moveSp (-4)).reg .sp) v

/-- A push of a register, read after R14 has moved: R14 itself is stored decremented (D16; log 18). -/
def pushReg (s : State) (i : Reg) : Res State := s.pushWord ((s.moveSp (-4)).reg i)

/-- A pop of a word: read the slot at R14, then add 4 to R14. -/
def popWord (s : State) : Res (Word × State) := do
  let (v, t) ← s.memRead .dword (s.reg .sp)
  return (v, t.moveSp 4)

/-- A pop into a register: R14 itself is loaded and then moved by 4 (D16; log 18). -/
def popReg (s : State) (i : Reg) : Res State := do
  let (v, t) ← s.memRead .dword (s.reg .sp)
  return (t.setReg i v).moveSp 4

/-- `for i = 0 .. n`: push Ri. -/
def pushUpTo (s : State) : Nat → Res State
  | 0 => s.pushReg 0
  | n + 1 => do
    let t ← s.pushUpTo n
    t.pushReg (Fin.ofNat 16 (n + 1))

/-- `for i = n downto 0`: pop Ri. -/
def popDownFrom (s : State) : Nat → Res State
  | 0 => s.popReg 0
  | n + 1 => do
    let t ← s.popReg (Fin.ofNat 16 (n + 1))
    t.popDownFrom n

/-! ## The interrupt (60_exceptions.md) -/

/-- Interrupt entry (R185): R0 to R14, A, CC and pc are pushed, interrupts are disabled, control goes to
INT_VECTOR (R187). `pc` is the address of the instruction that would have run next (D23; log 22). -/
def interruptEntry (s : State) : Res State := do
  let t ← s.pushUpTo 14
  let t ← t.pushWord t.a
  let t ← t.pushWord (ccPack t.cfg.ccCodec t.cc)
  let t ← t.pushWord t.pc
  return { t with ie := false, pc := t.cfg.intVector }

/-- The return from an interrupt (45_interrupt_control.md R172): pc, CC, A and R14 to R0 are popped,
interrupts are enabled, control goes to the popped pc. -/
def returnFromInterrupt (s : State) : Res State := do
  let (newPc, t) ← s.popWord
  let (w, t) ← t.popWord
  let (v, t) ← t.popWord
  let t ← { t with cc := ccUnpack t.cfg.ccCodec w, a := v }.popDownFrom 14
  return { t with ie := true, pc := newPc }

/-- The environment presents a request at this boundary (R18). -/
def irqNow (s : State) : Bool := s.irq.headD false

/-- An interrupt is taken at this boundary (R184). -/
def takesInterrupt (s : State) : Bool := s.ie && s.irqNow

/-- This boundary is past: the environment's next choice is for the next boundary (log 20). -/
def passBoundary (s : State) : State := { s with irq := s.irq.tail }

/-! ## Fetch (20_memory.md R30, R38) -/

/-- `Fetch(addr)`: a byte of IMem, or of the one memory where MEM_ORG is unified and the map has `ram`
there; no byte where there is no instruction memory (log 4). -/
def fetch (s : State) (addr : Word) : Option Byte :=
  match s.cfg.memOrg with
  | .harvard => Memory.read unlistedCode s.imem addr.toNat
  | .unified => match classify s.cfg.memMap addr with
    | .ram => some (s.dataByte addr)
    | .device => none
    | .absent => none

/-- The bytes at `addr`, `addr + 1`, …, at most `k` of them, up to the first that cannot be fetched. -/
def fetchBytes (s : State) : Nat → Word → List Byte
  | 0, _ => []
  | k + 1, addr => match s.fetch addr with
    | some b => b :: s.fetchBytes k (addr + 1)
    | none => []

/-- The instruction at pc (R38, R63): no instruction is longer than seven bytes, and the decoder reads no
byte past the instruction's last one. -/
def fetchInstr (s : State) : Res Instr :=
  match decode s.cfg.imm5 (s.fetchBytes 7 s.pc) with
  | .ok (i, _) => .ok i
  | .error .truncated => .error .fetchOutsideMemory
  | .error .fifthByteContinues => .error .badImmediate
  | .error .fifthByteHighBits => .error .badImmediate

end State

/-! ## The end of an instruction (R7) -/

/-- The outcome of an operation that has written pc itself. -/
def outcome : Res State → Host.Outcome State Fault Refusal
  | .ok t => .next t
  | .error f => .fault f

/-- `next`: the address of the first byte after an instruction of `len` bytes (R7, R13; log 1). -/
def State.nextPc (s : State) (len : Nat) : Word := s.pc + BitVec.ofNat 32 len

/-- `pc <- next`. -/
def State.advance (s : State) (len : Nat) : State := { s with pc := s.nextPc len }

/-- The outcome of an instruction of `len` bytes that does not write pc. -/
def retire (len : Nat) (r : Res State) : Host.Outcome State Fault Refusal :=
  outcome (r.map (fun t => t.advance len))

/-- Loads an instruction's bytes where the step fetches next: into IMem, or, where MEM_ORG is unified,
into the one memory, which then has memory there (log 28). -/
def State.placeBytes (s : State) : Word → List Byte → State
  | _, [] => s
  | addr, b :: bs =>
    match s.cfg.memOrg with
    | .harvard =>
      State.placeBytes { s with imem := Memory.write unlistedCode s.imem addr.toNat b } (addr + 1) bs
    | .unified =>
      State.placeBytes
        { (s.setDataByte addr b) with
          cfg := if classify s.cfg.memMap addr = .ram then s.cfg
                 else { s.cfg with memMap := ⟨addr, 1, .ram⟩ :: s.cfg.memMap } }
        (addr + 1) bs

/-- No request is presented at this boundary where one would be taken (log 28). -/
def State.clearRequest (s : State) : State :=
  if s.takesInterrupt then { s with irq := false :: s.irq.tail } else s

end Sys2Proof.Machine
end

