-- ==== Sys2Proof/Machine/Operands.lean ====
section
/-! DEFINITION. The operand forms: effective addresses (41_loads_and_stores.md R90), jump targets
(42_jumps.md R120), and the shapes of meaning that several instructions share. -/

namespace Sys2Proof.Machine

namespace State

/-- `M[A+nn]` (R39, R90). -/
def eaOff (s : State) (imm : Imm) : Word := s.a + imm.value

/-- `M[A]` (R90). -/
def eaAcc (s : State) : Word := s.a

/-- `M[Rx]` (R90). -/
def eaReg (s : State) (x : Reg) : Word := s.reg x

/-- `target = next + imm` of a relative jump (R120). -/
def jumpTarget (s : State) (imm : Imm) : Word := s.nextPc (lenF1I imm) + imm.value

/-- A load into Rx (R90, R109). -/
def loadToReg (s : State) (w : Width) (x : Reg) (ea : Word) : Res State := do
  let (v, t) ← s.memRead w ea
  return t.setReg x (widen t.cfg.loadExt w v)

/-- A load into A (R90, R109). -/
def loadToAcc (s : State) (w : Width) (ea : Word) : Res State := do
  let (v, t) ← s.memRead w ea
  return { t with a := widen t.cfg.loadExt w v }

/-- A result in A, no flag written (R140). -/
def setAcc (s : State) (v : Word) : State := { s with a := v }

/-- A result in A and the flag c (R15, R146, R148 to R150). -/
def setAccC (s : State) (v : Word) (c : Bool) : State := { s with a := v, cc := withC s.cc c }

/-- A relative jump: taken to `next + imm`, else to `next` (R120). -/
def jumpIf (s : State) (taken : Bool) (imm : Imm) : State :=
  { s with pc := if taken then s.jumpTarget imm else s.nextPc (lenF1I imm) }

end State

end Sys2Proof.Machine
end

