-- ==== Sys2Proof/Machine/Arith.lean ====
section
/-! DEFINITION. Arithmetic, logic, shifts and extensions on A (43_arithmetic_and_logic.md). None accesses
memory or can stop (R140). -/

namespace Sys2Proof.Machine

/-- `A = A + Rx` (R141): no flag is written (log 17). -/
def execAddA (x : Reg) (s : State) : Host.Outcome State Fault Refusal :=
  retire lenF1 (.ok (s.setAcc (s.a + s.reg x)))

/-- `A = A - Rx` (R142): all eight flags are written. -/
def execSubA (x : Reg) (s : State) : Host.Outcome State Fault Refusal :=
  retire lenF1 (.ok { s with a := s.a - s.reg x, cc := subFlags s.a (s.reg x) })

/-- `A = A & Rx` (R143). -/
def execAndA (x : Reg) (s : State) : Host.Outcome State Fault Refusal :=
  retire lenF1 (.ok (s.setAcc (s.a &&& s.reg x)))

/-- `A = A | Rx` (R144). -/
def execOrA (x : Reg) (s : State) : Host.Outcome State Fault Refusal :=
  retire lenF1 (.ok (s.setAcc (s.a ||| s.reg x)))

/-- `A = A xor Rx` (R145). -/
def execXorA (x : Reg) (s : State) : Host.Outcome State Fault Refusal :=
  retire lenT (.ok (s.setAcc (s.a ^^^ s.reg x)))

/-- `adc` (R146): the carry-in is the flag c, whoever wrote it last (D25; log 24). -/
def execAdcA (x : Reg) (s : State) : Host.Outcome State Fault Refusal :=
  let t := adcSum s.a (s.reg x) s.cc.c
  retire lenT (.ok (s.setAccC (t.extractLsb' 0 32) (t.getLsbD 32)))

/-- `not A` (R147). -/
def execNotA (s : State) : Host.Outcome State Fault Refusal :=
  retire lenF1 (.ok (s.setAcc (~~~s.a)))

/-- `lsl A` (R148): c receives the bit shifted out (D12; log 16). -/
def execLslA (s : State) : Host.Outcome State Fault Refusal :=
  retire lenF1 (.ok (s.setAccC (s.a.extractLsb' 0 31 ++ 0#1) (s.a.getLsbD 31)))

/-- `lsr A` (R149): c receives the bit shifted out (D12; log 16). -/
def execLsrA (s : State) : Host.Outcome State Fault Refusal :=
  retire lenF1 (.ok (s.setAccC (0#1 ++ s.a.extractLsb' 1 31) (s.a.getLsbD 0)))

/-- `asr A` (R150): the sign bit is kept, c receives the bit shifted out (D12; log 16). -/
def execAsrA (s : State) : Host.Outcome State Fault Refusal :=
  retire lenF1 (.ok (s.setAccC (s.a.extractLsb' 31 1 ++ s.a.extractLsb' 1 31) (s.a.getLsbD 0)))

/-- `maskb A` (R151). -/
def execMaskbA (s : State) : Host.Outcome State Fault Refusal :=
  retire lenF1 (.ok (s.setAcc ((s.a.extractLsb' 0 8).setWidth 32)))

/-- `maskw A` (R152). -/
def execMaskwA (s : State) : Host.Outcome State Fault Refusal :=
  retire lenF1 (.ok (s.setAcc ((s.a.extractLsb' 0 16).setWidth 32)))

/-- `sexb A` (R153). -/
def execSexbA (s : State) : Host.Outcome State Fault Refusal :=
  retire lenF1 (.ok (s.setAcc ((s.a.extractLsb' 0 8).signExtend 32)))

/-- `sexw A` (R154). -/
def execSexwA (s : State) : Host.Outcome State Fault Refusal :=
  retire lenF1 (.ok (s.setAcc ((s.a.extractLsb' 0 16).signExtend 32)))

end Sys2Proof.Machine
end

