-- ==== Sys2Proof/Machine/Interrupt.lean ====
section
/-! DEFINITION. Interrupt control (45_interrupt_control.md). There is one mode: each may run at any time
(R173, R192; log 32). -/

namespace Sys2Proof.Machine

/-- `ei` (R170): the new value governs the next boundary (D19; log 21). -/
def execEi (s : State) : Host.Outcome State Fault Refusal :=
  retire lenT (.ok { s with ie := true })

/-- `di` (R171): the new value governs the next boundary (D19; log 21). -/
def execDi (s : State) : Host.Outcome State Fault Refusal :=
  retire lenT (.ok { s with ie := false })

/-- `reti` (R172). -/
def execReti (s : State) : Host.Outcome State Fault Refusal :=
  outcome s.returnFromInterrupt

end Sys2Proof.Machine
end

