-- ==== Sys2Proof/Machine/Jumps.lean ====
section
/-! DEFINITION. The jumps and the call (42_jumps.md). None writes a flag (R120); there is no delay slot
(R139). -/

namespace Sys2Proof.Machine

/-- `j #nn` (R121). -/
def execJ (imm : Imm) (s : State) : Host.Outcome State Fault Refusal :=
  .next (s.jumpIf true imm)

/-- `jlt #nn` (R122). -/
def execJlt (imm : Imm) (s : State) : Host.Outcome State Fault Refusal :=
  .next (s.jumpIf (condLt s.cc) imm)

/-- `jge #nn` (R123). -/
def execJge (imm : Imm) (s : State) : Host.Outcome State Fault Refusal :=
  .next (s.jumpIf (condGe s.cc) imm)

/-- `jlo #nn` (R124). -/
def execJlo (imm : Imm) (s : State) : Host.Outcome State Fault Refusal :=
  .next (s.jumpIf (condLo s.cc) imm)

/-- `jhs #nn` (R125). -/
def execJhs (imm : Imm) (s : State) : Host.Outcome State Fault Refusal :=
  .next (s.jumpIf (condHs s.cc) imm)

/-- `jz #nn` (R126). -/
def execJz (imm : Imm) (s : State) : Host.Outcome State Fault Refusal :=
  .next (s.jumpIf (condZ s.cc) imm)

/-- `jnz #nn` (R127). -/
def execJnz (imm : Imm) (s : State) : Host.Outcome State Fault Refusal :=
  .next (s.jumpIf (condNz s.cc) imm)

/-- `jlo.b #nn` (R128). -/
def execJloB (imm : Imm) (s : State) : Host.Outcome State Fault Refusal :=
  .next (s.jumpIf (condLoB s.cc) imm)

/-- `jhs.b #nn` (R129). -/
def execJhsB (imm : Imm) (s : State) : Host.Outcome State Fault Refusal :=
  .next (s.jumpIf (condHsB s.cc) imm)

/-- `jz.b #nn` (R130). -/
def execJzB (imm : Imm) (s : State) : Host.Outcome State Fault Refusal :=
  .next (s.jumpIf (condZB s.cc) imm)

/-- `jnz.b #nn` (R131). -/
def execJnzB (imm : Imm) (s : State) : Host.Outcome State Fault Refusal :=
  .next (s.jumpIf (condNzB s.cc) imm)

/-- `jlo.w #nn` (R132). -/
def execJloW (imm : Imm) (s : State) : Host.Outcome State Fault Refusal :=
  .next (s.jumpIf (condLoW s.cc) imm)

/-- `jhs.w #nn` (R133). -/
def execJhsW (imm : Imm) (s : State) : Host.Outcome State Fault Refusal :=
  .next (s.jumpIf (condHsW s.cc) imm)

/-- `jz.w #nn` (R134). -/
def execJzW (imm : Imm) (s : State) : Host.Outcome State Fault Refusal :=
  .next (s.jumpIf (condZW s.cc) imm)

/-- `jnz.w #nn` (R135). -/
def execJnzW (imm : Imm) (s : State) : Host.Outcome State Fault Refusal :=
  .next (s.jumpIf (condNzW s.cc) imm)

/-- `jsr #nn` (R136): R15 receives `next`, the return address. -/
def execJsr (imm : Imm) (s : State) : Host.Outcome State Fault Refusal :=
  .next ((s.jumpIf true imm).setReg .srp (s.nextPc (lenF1I imm)))

/-- `j-A` (R137). -/
def execJA (s : State) : Host.Outcome State Fault Refusal :=
  .next { s with pc := s.a }

end Sys2Proof.Machine
end

