-- ==== Sys2Proof/Machine/LoadStore.lean ====
section
/-! DEFINITION. The eighteen loads and stores (41_loads_and_stores.md). None writes a flag or IE (R109). -/

namespace Sys2Proof.Machine

/-- `Rx = M[A+nn].l` (R91). -/
def execLdOffL (x : Reg) (imm : Imm) (s : State) : Host.Outcome State Fault Refusal :=
  retire (lenF1I imm) (s.loadToReg .dword x (s.eaOff imm))

/-- `Rx = M[A].l` (R92). -/
def execLdAccL (x : Reg) (s : State) : Host.Outcome State Fault Refusal :=
  retire lenF1 (s.loadToReg .dword x s.eaAcc)

/-- `A = M[Rx].l` (R93). -/
def execLdRegL (x : Reg) (s : State) : Host.Outcome State Fault Refusal :=
  retire lenF1 (s.loadToAcc .dword (s.eaReg x))

/-- `M[A+nn].l = Rx` (R94). -/
def execStOffL (x : Reg) (imm : Imm) (s : State) : Host.Outcome State Fault Refusal :=
  retire (lenF1I imm) (s.memWrite .dword (s.eaOff imm) (s.reg x))

/-- `M[A].l = Rx` (R95). -/
def execStAccL (x : Reg) (s : State) : Host.Outcome State Fault Refusal :=
  retire lenF1 (s.memWrite .dword s.eaAcc (s.reg x))

/-- `M[Rx].l = A` (R96). -/
def execStRegL (x : Reg) (s : State) : Host.Outcome State Fault Refusal :=
  retire lenF1 (s.memWrite .dword (s.eaReg x) s.a)

/-- `Rx = M[A+nn].b` (R97). -/
def execLdOffB (x : Reg) (imm : Imm) (s : State) : Host.Outcome State Fault Refusal :=
  retire (lenTI imm) (s.loadToReg .byte x (s.eaOff imm))

/-- `Rx = M[A].b` (R98). -/
def execLdAccB (x : Reg) (s : State) : Host.Outcome State Fault Refusal :=
  retire lenT (s.loadToReg .byte x s.eaAcc)

/-- `A = M[Rx].b` (R99). -/
def execLdRegB (x : Reg) (s : State) : Host.Outcome State Fault Refusal :=
  retire lenT (s.loadToAcc .byte (s.eaReg x))

/-- `M[A+nn].b = Rx` (R100). -/
def execStOffB (x : Reg) (imm : Imm) (s : State) : Host.Outcome State Fault Refusal :=
  retire (lenTI imm) (s.memWrite .byte (s.eaOff imm) (s.reg x))

/-- `M[A].b = Rx` (R101). -/
def execStAccB (x : Reg) (s : State) : Host.Outcome State Fault Refusal :=
  retire lenT (s.memWrite .byte s.eaAcc (s.reg x))

/-- `M[Rx].b = A` (R102). -/
def execStRegB (x : Reg) (s : State) : Host.Outcome State Fault Refusal :=
  retire lenT (s.memWrite .byte (s.eaReg x) s.a)

/-- `Rx = M[A+nn].w` (R103). -/
def execLdOffW (x : Reg) (imm : Imm) (s : State) : Host.Outcome State Fault Refusal :=
  retire (lenTI imm) (s.loadToReg .word x (s.eaOff imm))

/-- `Rx = M[A].w` (R104). -/
def execLdAccW (x : Reg) (s : State) : Host.Outcome State Fault Refusal :=
  retire lenT (s.loadToReg .word x s.eaAcc)

/-- `A = M[Rx].w` (R105). -/
def execLdRegW (x : Reg) (s : State) : Host.Outcome State Fault Refusal :=
  retire lenT (s.loadToAcc .word (s.eaReg x))

/-- `M[A+nn].w = Rx` (R106). -/
def execStOffW (x : Reg) (imm : Imm) (s : State) : Host.Outcome State Fault Refusal :=
  retire (lenTI imm) (s.memWrite .word (s.eaOff imm) (s.reg x))

/-- `M[A].w = Rx` (R107). -/
def execStAccW (x : Reg) (s : State) : Host.Outcome State Fault Refusal :=
  retire lenT (s.memWrite .word s.eaAcc (s.reg x))

/-- `M[Rx].w = A` (R108). -/
def execStRegW (x : Reg) (s : State) : Host.Outcome State Fault Refusal :=
  retire lenT (s.memWrite .word (s.eaReg x) s.a)

end Sys2Proof.Machine
end

