-- ==== Sys2Proof/Machine/Moves.lean ====
section
/-! DEFINITION. The moves and immediate loads (40_moves_and_immediates.md). None touches memory, CC or IE
(R84). -/

namespace Sys2Proof.Machine

/-- `Rx = A` (R80). -/
def execRxFromA (x : Reg) (s : State) : Host.Outcome State Fault Refusal :=
  retire lenF1 (.ok (s.setReg x s.a))

/-- `A = Rx` (R81). -/
def execAFromRx (x : Reg) (s : State) : Host.Outcome State Fault Refusal :=
  retire lenF1 (.ok (s.setAcc (s.reg x)))

/-- `Rx = sex(nn)` (R82): the immediate is already sign extended. -/
def execRxImm (x : Reg) (imm : Imm) (s : State) : Host.Outcome State Fault Refusal :=
  retire (lenF1I imm) (.ok (s.setReg x imm.value))

/-- `A = sex(n)` (R62, R83): the field is a 4-bit signed number. -/
def execAImm (n : BitVec 4) (s : State) : Host.Outcome State Fault Refusal :=
  retire lenF1 (.ok (s.setAcc (n.signExtend 32)))

end Sys2Proof.Machine
end

