-- ==== Sys2Proof/Machine/Reserved.lean ====
section
/-! DEFINITION. The reserved encodings (30_encoding.md R65, R66): the source calls them "unused" and gives no
effect, the spec raises ModelFault for each, and a model must not replace it by a value or by a no-op (R8;
log 11). -/

namespace Sys2Proof.Machine

/-- Byte FF (R66). -/
def execResSecond15 (_s : State) : Host.Outcome State Fault Refusal :=
  outcome (.error .reservedEncoding)

/-- Bytes F8 1r (R66). -/
def execResThird1 (_r : BitVec 4) (_s : State) : Host.Outcome State Fault Refusal :=
  outcome (.error .reservedEncoding)

/-- Bytes F8 8o, o ≥ 2 (R66). -/
def execResFourth (_o : BitVec 4) (_s : State) : Host.Outcome State Fault Refusal :=
  outcome (.error .reservedEncoding)

/-- Bytes F4 hn, h ≠ 0 (R66). -/
def execResPush (_h _n : BitVec 4) (_s : State) : Host.Outcome State Fault Refusal :=
  outcome (.error .badRegisterList)

/-- Bytes F5 hn, h ≠ 0 (R66). -/
def execResPop (_h _n : BitVec 4) (_s : State) : Host.Outcome State Fault Refusal :=
  outcome (.error .badRegisterList)

end Sys2Proof.Machine
end

