-- ==== Sys2Proof/Machine/Stack.lean ====
section
/-! DEFINITION. The stack instructions (44_stack.md). None writes a flag or IE (R160). -/

namespace Sys2Proof.Machine

/-- `push R0..Rn` (R161). -/
def execPushR (n : Reg) (s : State) : Host.Outcome State Fault Refusal :=
  retire lenT (s.pushUpTo n.val)

/-- `pop R0..Rn` (R162). -/
def execPopR (n : Reg) (s : State) : Host.Outcome State Fault Refusal :=
  retire lenT (s.popDownFrom n.val)

/-- `push srp` (R163). -/
def execPushSrp (s : State) : Host.Outcome State Fault Refusal :=
  retire lenF1 (s.pushReg .srp)

/-- `pop-a` (R164). -/
def execPopA (s : State) : Host.Outcome State Fault Refusal :=
  retire lenF1 (s.popWord.map (fun r => r.2.setAcc r.1))

end Sys2Proof.Machine
end

