-- ==== Sys2Proof/Machine/Dispatch.lean ====
section
/-! DEFINITION. Which meaning each instruction has: one arm per constructor of Instr. -/

namespace Sys2Proof.Machine

def exec (i : Instr) (s : State) : Host.Outcome State Fault Refusal :=
  match i with
  | .rxFromA x => Sys2Proof.Machine.execRxFromA x s
  | .aFromRx x => Sys2Proof.Machine.execAFromRx x s
  | .ldOffL x imm => Sys2Proof.Machine.execLdOffL x imm s
  | .ldAccL x => Sys2Proof.Machine.execLdAccL x s
  | .ldRegL x => Sys2Proof.Machine.execLdRegL x s
  | .stOffL x imm => Sys2Proof.Machine.execStOffL x imm s
  | .stAccL x => Sys2Proof.Machine.execStAccL x s
  | .stRegL x => Sys2Proof.Machine.execStRegL x s
  | .rxImm x imm => Sys2Proof.Machine.execRxImm x imm s
  | .aImm n => Sys2Proof.Machine.execAImm n s
  | .j imm => Sys2Proof.Machine.execJ imm s
  | .jlt imm => Sys2Proof.Machine.execJlt imm s
  | .jge imm => Sys2Proof.Machine.execJge imm s
  | .jlo imm => Sys2Proof.Machine.execJlo imm s
  | .jhs imm => Sys2Proof.Machine.execJhs imm s
  | .jz imm => Sys2Proof.Machine.execJz imm s
  | .jnz imm => Sys2Proof.Machine.execJnz imm s
  | .jloB imm => Sys2Proof.Machine.execJloB imm s
  | .jhsB imm => Sys2Proof.Machine.execJhsB imm s
  | .jzB imm => Sys2Proof.Machine.execJzB imm s
  | .jnzB imm => Sys2Proof.Machine.execJnzB imm s
  | .jloW imm => Sys2Proof.Machine.execJloW imm s
  | .jhsW imm => Sys2Proof.Machine.execJhsW imm s
  | .jzW imm => Sys2Proof.Machine.execJzW imm s
  | .jnzW imm => Sys2Proof.Machine.execJnzW imm s
  | .jsr imm => Sys2Proof.Machine.execJsr imm s
  | .addA x => Sys2Proof.Machine.execAddA x s
  | .subA x => Sys2Proof.Machine.execSubA x s
  | .andA x => Sys2Proof.Machine.execAndA x s
  | .orA x => Sys2Proof.Machine.execOrA x s
  | .notA => Sys2Proof.Machine.execNotA s
  | .lslA => Sys2Proof.Machine.execLslA s
  | .lsrA => Sys2Proof.Machine.execLsrA s
  | .asrA => Sys2Proof.Machine.execAsrA s
  | .pushR n => Sys2Proof.Machine.execPushR n s
  | .popR n => Sys2Proof.Machine.execPopR n s
  | .pushSrp => Sys2Proof.Machine.execPushSrp s
  | .popA => Sys2Proof.Machine.execPopA s
  | .adcA x => Sys2Proof.Machine.execAdcA x s
  | .ldOffB x imm => Sys2Proof.Machine.execLdOffB x imm s
  | .ldAccB x => Sys2Proof.Machine.execLdAccB x s
  | .ldRegB x => Sys2Proof.Machine.execLdRegB x s
  | .stOffB x imm => Sys2Proof.Machine.execStOffB x imm s
  | .stAccB x => Sys2Proof.Machine.execStAccB x s
  | .stRegB x => Sys2Proof.Machine.execStRegB x s
  | .ei => Sys2Proof.Machine.execEi s
  | .di => Sys2Proof.Machine.execDi s
  | .xorA x => Sys2Proof.Machine.execXorA x s
  | .ldOffW x imm => Sys2Proof.Machine.execLdOffW x imm s
  | .ldAccW x => Sys2Proof.Machine.execLdAccW x s
  | .ldRegW x => Sys2Proof.Machine.execLdRegW x s
  | .stOffW x imm => Sys2Proof.Machine.execStOffW x imm s
  | .stAccW x => Sys2Proof.Machine.execStAccW x s
  | .stRegW x => Sys2Proof.Machine.execStRegW x s
  | .reti => Sys2Proof.Machine.execReti s
  | .maskbA => Sys2Proof.Machine.execMaskbA s
  | .maskwA => Sys2Proof.Machine.execMaskwA s
  | .sexbA => Sys2Proof.Machine.execSexbA s
  | .sexwA => Sys2Proof.Machine.execSexwA s
  | .jA => Sys2Proof.Machine.execJA s
  | .resSecond15 => Sys2Proof.Machine.execResSecond15 s
  | .resThird1 r => Sys2Proof.Machine.execResThird1 r s
  | .resFourth o => Sys2Proof.Machine.execResFourth o s
  | .resPush h n => Sys2Proof.Machine.execResPush h n s
  | .resPop h n => Sys2Proof.Machine.execResPop h n s

end Sys2Proof.Machine
end

