-- ==== Sys2Proof/Machine/Step.lean ====
section
/-! DEFINITION. One step of the machine (60_exceptions.md R184). -/

namespace Sys2Proof.Machine

/-- At an instruction boundary either the interrupt is taken or the instruction at pc is fetched, decoded
and executed (R184, R190). -/
def step (s : State) : Host.Outcome State Fault Refusal :=
  if s.takesInterrupt then outcome s.passBoundary.interruptEntry
  else
    match s.fetchInstr with
    | .ok i => exec i s.passBoundary
    | .error f => .fault f

/-- The state with the instruction of a row's word placed at pc, where the step fetches next, and no
interrupt taken at this boundary (log 27, log 28). -/
def State.withFetchWord (s : State) (nbits w : Nat) : State :=
  (s.placeBytes s.pc (tableBytes nbits w)).clearRequest

end Sys2Proof.Machine
end

