-- ==== Sys2Proof/Safety.lean ====
section
/-! DEFINITION. The terms claims are stated in: what a state keeps, what a run can reach, the end of a run,
and, read off the spec's tables, what each instruction may read and write. None of it is used by the
machine. -/

namespace Sys2Proof.Machine

/-! ## The invariant -/

/-- An output event is an aligned access of its width (20_memory.md R32, R34, R41). -/
def DeviceWrite.wf (e : DeviceWrite) : Prop :=
  e.addr.toNat % bytesOf e.width = 0 ∧ e.value.toNat < 2 ^ (8 * bytesOf e.width)

/-- Both memories are in canonical form and every output event is an aligned access. -/
structure State.Inv (s : State) : Prop where
  data    : s.dmem.wf unlistedData
  code    : s.imem.wf unlistedCode
  outputs : ∀ e ∈ s.outputs, e.wf

/-! ## Runs -/

/-- `Steps s t`: from `s` the machine can come to `t`, by any number of steps. -/
inductive Steps : State → State → Prop
  | refl (s : State) : Steps s s
  | tail {s t u : State} (h : Steps s t) (hs : step t = .next u) : Steps s u

/-- The end of a run: pc is at the instruction `j #-2`, bytes A0 7E, and no further interrupt will be
taken (70_reset_and_hazards.md R206, a convention of the spec; log 30). -/
structure State.Ended (s : State) : Prop where
  byte0   : s.fetch s.pc = some 0xA0
  byte1   : s.fetch (s.pc + 1) = some 0x7E
  noEntry : s.ie = false ∨ ∀ b ∈ s.irq, b = false

/-! ## Memory as numbers (20_memory.md R31 to R36) -/

/-- The multiple of the access size at or below an address, in numbers (R32). -/
def alignedBase (w : Width) (a : Word) : Word := a - BitVec.ofNat 32 (a.toNat % bytesOf w)

/-- The number held by the bytes an access at `a` reads, least significant byte at the lowest address
(R31, R33). -/
def State.numberAt (s : State) (w : Width) (a : Word) : Nat :=
  let b := alignedBase w a
  match w with
  | .byte => (s.dataByte b).toNat
  | .word => (s.dataByte b).toNat + 256 * (s.dataByte (b + 1)).toNat
  | .dword => (s.dataByte b).toNat + 256 * (s.dataByte (b + 1)).toNat +
      65536 * (s.dataByte (b + 2)).toNat + 16777216 * (s.dataByte (b + 3)).toNat

/-- `v` is the number `x` of the access width, widened by LOAD_EXT: by zeros, or by its sign (R36). -/
def Widened (e : LoadExt) (w : Width) (x : Nat) (v : Word) : Prop :=
  match e with
  | .zero => v.toNat = x
  | .sign => v.toInt = (x : Int).bmod (2 ^ (8 * bytesOf w))

/-- The class of the address an access is made on (R41). -/
def State.accessClass (s : State) (w : Width) (a : Word) : AddrClass :=
  classify s.cfg.memMap (alignedBase w a)

/-- `a` is one of the `n` addresses from `base`, modulo 2^32. -/
def InBlock (base : Word) (n : Nat) (a : Word) : Prop := (a - base).toNat < n

/-- The two states read the same at every data address outside the `n` bytes from `base`. -/
def SameDataOutside (s t : State) (base : Word) (n : Nat) : Prop :=
  ∀ a : Word, ¬ InBlock base n a → t.dataByte a = s.dataByte a

/-! ## The stack (44_stack.md R160, R161; 60_exceptions.md R186) -/

/-- A 4-byte stack slot. -/
def State.slot (s : State) (a : Word) : Word := BitVec.ofNat 32 (s.numberAt .dword a)

/-- Where the `k`-th push from the stack pointer `sp` lands: `sp - 4(k+1)`. -/
def pushedAt (sp : Word) (k : Nat) : Word := sp - BitVec.ofNat 32 (4 * (k + 1))

/-- The `k`-th slot above the stack pointer `sp`: `sp + 4k`. -/
def poppedAt (sp : Word) (k : Nat) : Word := sp + BitVec.ofNat 32 (4 * k)

/-- The slots of `n` pushes from `sp` all have memory. -/
def State.RamBelow (s : State) (sp : Word) (n : Nat) : Prop :=
  ∀ k, k < n → s.accessClass .dword (pushedAt sp k) = .ram

/-- The first `n` slots above `sp` all have memory. -/
def State.RamAbove (s : State) (sp : Word) (n : Nat) : Prop :=
  ∀ k, k < n → s.accessClass .dword (poppedAt sp k) = .ram

/-- What `push R0..Rn` and interrupt entry store for a register: R14 is stored decremented, as the address
of its own slot (D16; log 18). -/
def State.pushedValue (s : State) (i : Reg) : Word :=
  if i = .sp then pushedAt (s.reg .sp) 14 else s.reg i

/-! ## What an instruction names (41_loads_and_stores.md R90) -/

/-- The loads: width, destination (a register, or A for none) and effective address. -/
def loadParts (s : State) : Instr → Option (Width × Option Reg × Word)
  | .ldOffL x imm => some (.dword, some x, s.eaOff imm)
  | .ldAccL x => some (.dword, some x, s.eaAcc)
  | .ldRegL x => some (.dword, none, s.eaReg x)
  | .ldOffB x imm => some (.byte, some x, s.eaOff imm)
  | .ldAccB x => some (.byte, some x, s.eaAcc)
  | .ldRegB x => some (.byte, none, s.eaReg x)
  | .ldOffW x imm => some (.word, some x, s.eaOff imm)
  | .ldAccW x => some (.word, some x, s.eaAcc)
  | .ldRegW x => some (.word, none, s.eaReg x)
  | _ => none

/-- The stores: width, effective address and the stored register's value. -/
def storeParts (s : State) : Instr → Option (Width × Word × Word)
  | .stOffL x imm => some (.dword, s.eaOff imm, s.reg x)
  | .stAccL x => some (.dword, s.eaAcc, s.reg x)
  | .stRegL x => some (.dword, s.eaReg x, s.a)
  | .stOffB x imm => some (.byte, s.eaOff imm, s.reg x)
  | .stAccB x => some (.byte, s.eaAcc, s.reg x)
  | .stRegB x => some (.byte, s.eaReg x, s.a)
  | .stOffW x imm => some (.word, s.eaOff imm, s.reg x)
  | .stAccW x => some (.word, s.eaAcc, s.reg x)
  | .stRegW x => some (.word, s.eaReg x, s.a)
  | _ => none

/-- The destination of a load receives `v`. -/
def State.setDest (s : State) (d : Option Reg) (v : Word) : State :=
  match d with
  | some x => s.setReg x v
  | none => { s with a := v }

/-- The general registers an instruction may write: the one it names as destination, and the implied
writers of 10_state.md R11. -/
def mayWriteReg (i : Instr) (r : Reg) : Bool :=
  match i with
  | .rxFromA x | .rxImm x _ => decide (r = x)
  | .ldOffL x _ | .ldAccL x | .ldOffB x _ | .ldAccB x | .ldOffW x _ | .ldAccW x => decide (r = x)
  | .jsr _ => decide (r = .srp)
  | .pushR _ | .pushSrp | .popA => decide (r = .sp)
  | .popR n => decide (r ≤ n ∨ r = .sp)
  | .reti => decide (r ≠ .srp)
  | _ => false

/-- The instructions that write every flag (10_state.md R15). -/
def writesAllFlags : Instr → Bool
  | .subA _ | .reti => true
  | _ => false

/-- The instructions that write the flag c (10_state.md R15). -/
def writesCarry : Instr → Bool
  | .subA _ | .reti | .adcA _ | .lslA | .lsrA | .asrA => true
  | _ => false

/-- The instructions that read a flag (10_state.md R15). -/
def readsFlags : Instr → Bool
  | .adcA _ | .jlt _ | .jge _ | .jlo _ | .jhs _ | .jz _ | .jnz _ | .jloB _ | .jhsB _ | .jzB _ | .jnzB _
  | .jloW _ | .jhsW _ | .jzW _ | .jnzW _ => true
  | _ => false

/-- The instructions that write IE (10_state.md R17). -/
def writesIE : Instr → Bool
  | .ei | .di | .reti => true
  | _ => false

/-- The instructions that neither read nor write A (10_state.md R12): the immediate load, the sixteen
relative jumps, push, pop, `push srp`, `ei` and `di`. -/
def leavesA : Instr → Bool
  | .rxImm _ _ | .j _ | .jlt _ | .jge _ | .jlo _ | .jhs _ | .jz _ | .jnz _ | .jloB _ | .jhsB _ | .jzB _
  | .jnzB _ | .jloW _ | .jhsW _ | .jzW _ | .jnzW _ | .jsr _ | .pushR _ | .popR _ | .pushSrp | .ei
  | .di => true
  | _ => false

/-- The instructions that write pc otherwise than to `next` (10_state.md R13). -/
def controls : Instr → Bool
  | .j _ | .jlt _ | .jge _ | .jlo _ | .jhs _ | .jz _ | .jnz _ | .jloB _ | .jhsB _ | .jzB _
  | .jnzB _ | .jloW _ | .jhsW _ | .jzW _ | .jnzW _ | .jsr _ | .jA | .reti => true
  | _ => false

/-- The instructions that write data memory (10_state.md R20): the stores and the pushes. -/
def storesData : Instr → Bool
  | .stOffL _ _ | .stAccL _ | .stRegL _ | .stOffB _ _ | .stAccB _ | .stRegB _ | .stOffW _ _
  | .stAccW _ | .stRegW _ | .pushR _ | .pushSrp => true
  | _ => false

/-- The instructions that read data memory (10_state.md R20): the loads and the pops. -/
def loadsData : Instr → Bool
  | .ldOffL _ _ | .ldAccL _ | .ldRegL _ | .ldOffB _ _ | .ldAccB _ | .ldRegB _ | .ldOffW _ _
  | .ldAccW _ | .ldRegW _ | .popR _ | .popA | .reti => true
  | _ => false

end Sys2Proof.Machine
end

