-- ==== Sys2Proof/Certificates/Slice0/Obligations.lean ====
section
/-! DEFINITION. The statements for the provers: what the numbered rules of the spec say an instruction and
the machine do. Each statement about every state covers every platform, since the open parameters
(00_scope.md R5) are data of the state. -/

open Sys2Proof Sys2Proof.Machine

/-! ## Encoding -/

/-- Decoding what the encoder writes gives the instruction back, whatever bytes follow, in both readings of
the five-byte immediate (R52 to R65). -/
def Obligations.DecodeOfEncodeIsIdentity : Prop :=
  ∀ (m : Imm5Mode) (i : Instr) (rest : List Byte),
    i.wf = true → decode m (encode m i ++ rest) = .ok (i, rest)

/-- What the decoder answers is a well-formed instruction, and it has consumed exactly the instruction's
length: the bytes after it are the rest of the list (R50, R63). For the five reserved rows the length is the
model's choice (R66 defines none; log 11). -/
def Obligations.DecodedInstructionIsWellFormed : Prop :=
  ∀ (m : Imm5Mode) (bs : List Byte) (i : Instr) (rest : List Byte),
    decode m bs = .ok (i, rest) →
      i.wf = true ∧ ∃ used, bs = used ++ rest ∧ used.length = i.length

/-- Under last4 an instruction, with its immediate's byte count, has one encoding only; under shift7 the
same holds but for bits 6:4 of the first byte of a five-byte immediate, so it is stated for the
instructions shorter than six bytes there (R60, R64; log 26). -/
def Obligations.EncodingIsUnique : Prop :=
  ∀ (m : Imm5Mode) (bs : List Byte) (i : Instr) (rest : List Byte),
    decode m bs = .ok (i, rest) → (m = .last4 ∨ i.length < 6) → bs = encode m i ++ rest

/-- Every well-formed instruction is encoded in as many bytes as its length says, 1 to 7 (R50). For the five
reserved rows the length is the model's choice (R66 defines none; log 11). -/
def Obligations.EncodedLengthIsOneToSeven : Prop :=
  ∀ (m : Imm5Mode) (i : Instr), i.wf = true →
    (encode m i).length = i.length ∧ 1 ≤ i.length ∧ i.length ≤ 7

/-- Seven bytes always decide: they begin with exactly one instruction or reserved encoding, or the
immediate is malformed, and bytes further on do not matter (R64). -/
def Obligations.SevenBytesDecideTheInstruction : Prop :=
  ∀ (m : Imm5Mode) (bs more : List Byte), 7 ≤ bs.length →
    decode m bs ≠ .error .truncated ∧
    (∀ i rest, decode m bs = .ok (i, rest) → decode m (bs ++ more) = .ok (i, rest ++ more)) ∧
    (∀ e, decode m bs = .error e → decode m (bs ++ more) = .error e)

/-- One to four immediate bytes: seven bits each, the first most significant, bit 7 set in all but the
last, and the sign bit is the highest one (R59). -/
def Obligations.ImmediateGroupsAreMostSignificantFirst : Prop :=
  ∀ (m : Imm5Mode) (g1 g2 g3 g4 : BitVec 7) (rest : List Byte),
    let more := fun g : BitVec 7 => BitVec.ofNat 8 (128 + g.toNat)
    let last := fun g : BitVec 7 => BitVec.ofNat 8 g.toNat
    (∃ v : Word, decodeImm m (last g1 :: rest) = .ok (⟨1, v⟩, rest) ∧
      v.toInt = (g1.toNat : Int).bmod (2 ^ 7)) ∧
    (∃ v : Word, decodeImm m (more g1 :: last g2 :: rest) = .ok (⟨2, v⟩, rest) ∧
      v.toInt = (g1.toNat * 128 + g2.toNat : Int).bmod (2 ^ 14)) ∧
    (∃ v : Word, decodeImm m (more g1 :: more g2 :: last g3 :: rest) = .ok (⟨3, v⟩, rest) ∧
      v.toInt = ((g1.toNat * 128 + g2.toNat) * 128 + g3.toNat : Int).bmod (2 ^ 21)) ∧
    (∃ v : Word, decodeImm m (more g1 :: more g2 :: more g3 :: last g4 :: rest) = .ok (⟨4, v⟩, rest) ∧
      v.toInt = (((g1.toNat * 128 + g2.toNat) * 128 + g3.toNat) * 128 + g4.toNat : Int).bmod (2 ^ 28))

/-- The five-byte immediate in both readings, and what is malformed in each (R60, R65). -/
def Obligations.FiveByteImmediateReadings : Prop :=
  ∀ (g1 g2 g3 g4 : BitVec 7) (b5 : Byte) (rest : List Byte),
    let more := fun g : BitVec 7 => BitVec.ofNat 8 (128 + g.toNat)
    let bs := more g1 :: more g2 :: more g3 :: more g4 :: b5 :: rest
    let high := ((g1.toNat * 128 + g2.toNat) * 128 + g3.toNat) * 128 + g4.toNat
    (b5.toNat < 16 → ∃ v : Word, decodeImm .last4 bs = .ok (⟨5, v⟩, rest) ∧
      v.toNat = high * 16 + b5.toNat) ∧
    (b5.toNat < 128 → ∃ v : Word, decodeImm .shift7 bs = .ok (⟨5, v⟩, rest) ∧
      v.toNat = (high * 128 + b5.toNat) % 2 ^ 32) ∧
    (16 ≤ b5.toNat → b5.toNat < 128 → decodeImm .last4 bs = .error .fifthByteHighBits) ∧
    (∀ m, 128 ≤ b5.toNat → decodeImm m bs = .error .fifthByteContinues)

/-- Words written out from the encoding tables decode to the instructions they stand for: one or more of
each opcode level (R52 to R57) and of the screenshot's lines (95_test_vectors.md 1.7). -/
def Obligations.SpecWordsDecode : Prop :=
  decode .last4 [0x0A] = .ok (.rxFromA 10, []) ∧
  decode .last4 [0x81, 0x86, 0x7C] = .ok (.rxImm 1 ⟨2, 892⟩, []) ∧
  decode .last4 [0x92] = .ok (.aImm 2, []) ∧
  decode .last4 [0xC1] = .ok (.subA 1, []) ∧
  decode .last4 [0xA6, 0x04] = .ok (.jnz ⟨1, 4⟩, []) ∧
  decode .last4 [0xAF, 0xFA, 0x6A] = .ok (.jsr ⟨2, BitVec.ofInt 32 (-662)⟩, []) ∧
  decode .last4 [0xF1] = .ok (.lslA, []) ∧
  decode .last4 [0xF4, 0x01] = .ok (.pushR 1, []) ∧
  decode .last4 [0xF8, 0x70] = .ok (.stRegB 0, []) ∧
  decode .last4 [0xF8, 0xAA, 0x84, 0x3C] = .ok (.ldOffW 10 ⟨2, 572⟩, []) ∧
  decode .last4 [0xF8, 0x80] = .ok (.ei, []) ∧
  decode .last4 [0xF9] = .ok (.reti, []) ∧
  decode .last4 [0xFE] = .ok (.jA, [])

/-! ## The step -/

/-- Where no interrupt is taken, the step is exec of the instruction the bytes at pc decode to, the
environment's choice for this boundary being past (R38, R184; that a step uses up one entry of a schedule is
the model's choice, log 20). -/
def Obligations.StepRunsTheDecodedInstruction : Prop :=
  ∀ (s : State) (i : Instr) (rest : List Byte),
    (s.ie = false ∨ s.irq.head? ≠ some true) →
    decode s.cfg.imm5 (s.fetchBytes 7 s.pc) = .ok (i, rest) →
    step s = exec i { s with irq := s.irq.tail }

/-- If the bytes of a well-formed instruction stand at pc, the step runs it; no byte after its last one is
needed, and the addresses wrap modulo 2^32 (R13, R38, R63; that a step uses up one entry of the interrupt
schedule is the model's choice, log 20). -/
def Obligations.FetchedEncodingIsExecuted : Prop :=
  ∀ (s : State) (i : Instr),
    (s.ie = false ∨ s.irq.head? ≠ some true) → i.wf = true →
    (∀ (k : Nat) (b : Byte), (encode s.cfg.imm5 i)[k]? = some b →
      s.fetch (s.pc + BitVec.ofNat 32 k) = some b) →
    step s = exec i { s with irq := s.irq.tail }

/-- If one of the instruction's bytes has no instruction memory, the step faults (R38, R181; which bytes
a reserved row has is the model's choice, log 11). -/
def Obligations.MissingInstructionByteFaults : Prop :=
  ∀ (s : State) (i : Instr) (k : Nat),
    (s.ie = false ∨ s.irq.head? ≠ some true) → i.wf = true → k < i.length →
    (∀ (j : Nat) (b : Byte), j < k → (encode s.cfg.imm5 i)[j]? = some b →
      s.fetch (s.pc + BitVec.ofNat 32 j) = some b) →
    s.fetch (s.pc + BitVec.ofNat 32 k) = none →
    step s = .fault .fetchOutsideMemory

/-- An unused opcode stops with ReservedEncoding, a register list with a non-zero high nibble with
BadRegisterList (R65, R66). -/
def Obligations.ReservedEncodingsFault : Prop :=
  ∀ (s : State) (b0 b1 : Byte),
    (s.ie = false ∨ s.irq.head? ≠ some true) → s.fetch s.pc = some b0 →
    (b0 = 0xFF → step s = .fault .reservedEncoding) ∧
    (s.fetch (s.pc + 1) = some b1 →
      (b0 = 0xF8 → b1.toNat / 16 = 1 → step s = .fault .reservedEncoding) ∧
      (b0 = 0xF8 → 0x82 ≤ b1.toNat → b1.toNat ≤ 0x8F → step s = .fault .reservedEncoding) ∧
      (b0 = 0xF4 → b1.toNat / 16 ≠ 0 → step s = .fault .badRegisterList) ∧
      (b0 = 0xF5 → b1.toNat / 16 ≠ 0 → step s = .fault .badRegisterList))

/-- The reserved rows of the opcode table stop in exec too, in every state (R66). -/
def Obligations.ReservedRowsStop : Prop :=
  ∀ (s : State) (x y : BitVec 4),
    exec .resSecond15 s = .fault .reservedEncoding ∧
    exec (.resThird1 x) s = .fault .reservedEncoding ∧
    exec (.resFourth x) s = .fault .reservedEncoding ∧
    exec (.resPush x y) s = .fault .badRegisterList ∧
    exec (.resPop x y) s = .fault .badRegisterList

/-- A malformed five-byte immediate, after any opcode bytes that take one, stops with BadImmediate (R60,
R66). -/
def Obligations.MalformedImmediateFaults : Prop :=
  ∀ (s : State) (op : List Byte) (x b1 b2 b3 b4 b5 : Byte),
    (s.ie = false ∨ s.irq.head? ≠ some true) →
    (op = [x] ∧ (x.toNat / 16 = 2 ∨ x.toNat / 16 = 5 ∨ x.toNat / 16 = 8 ∨ x.toNat / 16 = 10) ∨
      op = [0xF8, x] ∧
        (x.toNat / 16 = 2 ∨ x.toNat / 16 = 5 ∨ x.toNat / 16 = 10 ∨ x.toNat / 16 = 13)) →
    (∀ (k : Nat) (b : Byte), (op ++ [b1, b2, b3, b4, b5])[k]? = some b →
      s.fetch (s.pc + BitVec.ofNat 32 k) = some b) →
    128 ≤ b1.toNat → 128 ≤ b2.toNat → 128 ≤ b3.toNat → 128 ≤ b4.toNat →
    (128 ≤ b5.toNat ∨ (s.cfg.imm5 = .last4 ∧ 16 ≤ b5.toNat)) →
    step s = .fault .badImmediate

/-! ## Moves and immediates -/

/-- The four moves, each with its bytes: one destination, pc to next, nothing else (R62, R80, R81, R83; the
immediate load of R82 stands with them). -/
def Obligations.MovesWriteOneRegister : Prop :=
  ∀ (s : State) (m : Imm5Mode) (bs rest : List Byte) (x : Reg) (imm : Imm) (n : BitVec 4),
    decode m (BitVec.ofNat 8 (0x00 + x.val) :: bs) = .ok (.rxFromA x, bs) ∧
    exec (.rxFromA x) s = .next { (s.setReg x s.a) with pc := s.pc + 1 } ∧
    decode m (BitVec.ofNat 8 (0x10 + x.val) :: bs) = .ok (.aFromRx x, bs) ∧
    exec (.aFromRx x) s = .next { s with a := s.reg x, pc := s.pc + 1 } ∧
    (decodeImm m bs = .ok (imm, rest) →
      decode m (BitVec.ofNat 8 (0x80 + x.val) :: bs) = .ok (.rxImm x imm, rest)) ∧
    exec (.rxImm x imm) s =
      .next { (s.setReg x imm.value) with pc := s.pc + BitVec.ofNat 32 (1 + imm.size) } ∧
    decode m (BitVec.ofNat 8 (0x90 + n.toNat) :: bs) = .ok (.aImm n, bs) ∧
    ∃ v : Word, exec (.aImm n) s = .next { s with a := v, pc := s.pc + 1 } ∧ v.toInt = n.toInt

/-! ## Arithmetic and logic -/

/-- Add, and, or, xor and not, each with its bytes: the result in A, no flag written, Rx unchanged (R141,
R143 to R145, R147). -/
def Obligations.AddAndLogicWriteOnlyA : Prop :=
  ∀ (s : State) (m : Imm5Mode) (bs : List Byte) (x : Reg),
    decode m (BitVec.ofNat 8 (0xB0 + x.val) :: bs) = .ok (.addA x, bs) ∧
    (∃ v : Word, exec (.addA x) s = .next { s with a := v, pc := s.pc + 1 } ∧
      v.toNat = (s.a.toNat + (s.reg x).toNat) % 2 ^ 32) ∧
    decode m (BitVec.ofNat 8 (0xD0 + x.val) :: bs) = .ok (.andA x, bs) ∧
    (∃ v : Word, exec (.andA x) s = .next { s with a := v, pc := s.pc + 1 } ∧
      ∀ k, v.getLsbD k = (s.a.getLsbD k && (s.reg x).getLsbD k)) ∧
    decode m (BitVec.ofNat 8 (0xE0 + x.val) :: bs) = .ok (.orA x, bs) ∧
    (∃ v : Word, exec (.orA x) s = .next { s with a := v, pc := s.pc + 1 } ∧
      ∀ k, v.getLsbD k = (s.a.getLsbD k || (s.reg x).getLsbD k)) ∧
    decode m (0xF8 :: BitVec.ofNat 8 (0x90 + x.val) :: bs) = .ok (.xorA x, bs) ∧
    (∃ v : Word, exec (.xorA x) s = .next { s with a := v, pc := s.pc + 2 } ∧
      ∀ k, v.getLsbD k = (s.a.getLsbD k ^^ (s.reg x).getLsbD k)) ∧
    decode m (0xF0 :: bs) = .ok (.notA, bs) ∧
    (∃ v : Word, exec .notA s = .next { s with a := v, pc := s.pc + 1 } ∧
      v.toNat + s.a.toNat = 2 ^ 32 - 1)

/-- Subtraction: the difference modulo 2^32 in A and all eight flags; v is the signed overflow, c, c8 and
c16 are the borrows (R14, R142; n and v one at a time: log 15). -/
def Obligations.SubtractSetsTheEightFlags : Prop :=
  ∀ (s : State) (x : Reg),
    let a := s.a
    let b := s.reg x
    ∃ r : Word, r.toNat = (a.toNat + 2 ^ 32 - b.toNat) % 2 ^ 32 ∧
      exec (.subA x) s = .next
        { s with
          a := r, pc := s.pc + 1,
          cc :=
            { n := decide (r.toInt < 0)
              v := decide (a.toInt - b.toInt < -2 ^ 31 ∨ 2 ^ 31 ≤ a.toInt - b.toInt)
              z := decide (a.toNat = b.toNat)
              c := decide (a.toNat < b.toNat)
              c8 := decide (a.toNat % 2 ^ 8 < b.toNat % 2 ^ 8)
              z8 := decide (a.toNat % 2 ^ 8 = b.toNat % 2 ^ 8)
              c16 := decide (a.toNat % 2 ^ 16 < b.toNat % 2 ^ 16)
              z16 := decide (a.toNat % 2 ^ 16 = b.toNat % 2 ^ 16) } }

/-- The compare-and-jump law: in any later state in which the flag concerned is still that of `A = A - Rx`,
each conditional jump is taken exactly when its comparison holds of the old A and Rx (R138). -/
def Obligations.CompareAndJump : Prop :=
  ∀ (s u : State) (x : Reg) (imm : Imm),
    let a := s.a
    let b := s.reg x
    let next := u.pc + BitVec.ofNat 32 (1 + imm.size)
    let goes := fun (i : Instr) (taken : Prop) =>
      (taken → exec i u = .next { u with pc := next + imm.value }) ∧
      (¬ taken → exec i u = .next { u with pc := next })
    ∃ t, exec (.subA x) s = .next t ∧
      (u.cc.n = t.cc.n → u.cc.v = t.cc.v →
        goes (.jlt imm) (a.toInt < b.toInt) ∧ goes (.jge imm) (b.toInt ≤ a.toInt)) ∧
      (u.cc.c = t.cc.c → goes (.jlo imm) (a.toNat < b.toNat) ∧ goes (.jhs imm) (b.toNat ≤ a.toNat)) ∧
      (u.cc.z = t.cc.z → goes (.jz imm) (a = b) ∧ goes (.jnz imm) (a ≠ b)) ∧
      (u.cc.c8 = t.cc.c8 →
        goes (.jloB imm) (a.toNat % 2 ^ 8 < b.toNat % 2 ^ 8) ∧
        goes (.jhsB imm) (b.toNat % 2 ^ 8 ≤ a.toNat % 2 ^ 8)) ∧
      (u.cc.z8 = t.cc.z8 →
        goes (.jzB imm) (a.toNat % 2 ^ 8 = b.toNat % 2 ^ 8) ∧
        goes (.jnzB imm) (a.toNat % 2 ^ 8 ≠ b.toNat % 2 ^ 8)) ∧
      (u.cc.c16 = t.cc.c16 →
        goes (.jloW imm) (a.toNat % 2 ^ 16 < b.toNat % 2 ^ 16) ∧
        goes (.jhsW imm) (b.toNat % 2 ^ 16 ≤ a.toNat % 2 ^ 16)) ∧
      (u.cc.z16 = t.cc.z16 →
        goes (.jzW imm) (a.toNat % 2 ^ 16 = b.toNat % 2 ^ 16) ∧
        goes (.jnzW imm) (a.toNat % 2 ^ 16 ≠ b.toNat % 2 ^ 16))

/-- `adc`: carry and A together are the exact sum of A, Rx and the carry-in; the other seven flags keep
their values (R146; log 17, log 24). -/
def Obligations.AddWithCarryIsExact : Prop :=
  ∀ (s : State) (x : Reg), ∃ (v : Word) (c : Bool),
    exec (.adcA x) s = .next { s with a := v, cc := { s.cc with c := c }, pc := s.pc + 2 } ∧
    c.toNat * 2 ^ 32 + v.toNat = s.a.toNat + (s.reg x).toNat + s.cc.c.toNat

/-- The shifts as arithmetic: doubling, halving unsigned, halving signed (rounding down), the bit that
leaves in c, the other seven flags unchanged (R148 to R150; log 16). -/
def Obligations.ShiftsMoveOneBitThroughCarry : Prop :=
  ∀ s : State,
    (∃ (v : Word) (c : Bool),
      exec .lslA s = .next { s with a := v, cc := { s.cc with c := c }, pc := s.pc + 1 } ∧
      c.toNat * 2 ^ 32 + v.toNat = 2 * s.a.toNat) ∧
    (∃ (v : Word) (c : Bool),
      exec .lsrA s = .next { s with a := v, cc := { s.cc with c := c }, pc := s.pc + 1 } ∧
      2 * v.toNat + c.toNat = s.a.toNat) ∧
    (∃ (v : Word) (c : Bool),
      exec .asrA s = .next { s with a := v, cc := { s.cc with c := c }, pc := s.pc + 1 } ∧
      2 * v.toInt + c.toNat = s.a.toInt)

/-- The masks keep the low 8 or 16 bits, the extensions copy bit 7 or bit 15 upwards; no flag is written
(R151 to R154). -/
def Obligations.MasksAndExtensions : Prop :=
  ∀ (s : State) (m : Imm5Mode) (bs : List Byte),
    decode m (0xFA :: bs) = .ok (.maskbA, bs) ∧
    (∃ v : Word, exec .maskbA s = .next { s with a := v, pc := s.pc + 1 } ∧
      v.toNat = s.a.toNat % 2 ^ 8) ∧
    decode m (0xFB :: bs) = .ok (.maskwA, bs) ∧
    (∃ v : Word, exec .maskwA s = .next { s with a := v, pc := s.pc + 1 } ∧
      v.toNat = s.a.toNat % 2 ^ 16) ∧
    decode m (0xFC :: bs) = .ok (.sexbA, bs) ∧
    (∃ v : Word, exec .sexbA s = .next { s with a := v, pc := s.pc + 1 } ∧
      v.toInt = (s.a.toNat : Int).bmod (2 ^ 8)) ∧
    decode m (0xFD :: bs) = .ok (.sexwA, bs) ∧
    (∃ v : Word, exec .sexwA s = .next { s with a := v, pc := s.pc + 1 } ∧
      v.toInt = (s.a.toNat : Int).bmod (2 ^ 16))

/-! ## Jumps and calls -/

/-- `j` and the jumps on the whole word, each with its byte 0: the condition on the flags as they stand, pc
alone changes (R121 to R127). -/
def Obligations.WholeWordJumpsChangeOnlyPc : Prop :=
  ∀ (s : State) (m : Imm5Mode) (bs rest : List Byte) (imm : Imm),
    let next := s.pc + BitVec.ofNat 32 (1 + imm.size)
    let jump := fun (byte0 : Byte) (i : Instr) (taken : Bool) =>
      (decodeImm m bs = .ok (imm, rest) → decode m (byte0 :: bs) = .ok (i, rest)) ∧
      exec i s = .next { s with pc := if taken then next + imm.value else next }
    jump 0xA0 (.j imm) true ∧
    jump 0xA1 (.jlt imm) (s.cc.n != s.cc.v) ∧ jump 0xA2 (.jge imm) (s.cc.n == s.cc.v) ∧
    jump 0xA3 (.jlo imm) s.cc.c ∧ jump 0xA4 (.jhs imm) (!s.cc.c) ∧
    jump 0xA5 (.jz imm) s.cc.z ∧ jump 0xA6 (.jnz imm) (!s.cc.z)

/-- The jumps on the low byte and the low 16 bits, each with its byte 0 (R128 to R135). -/
def Obligations.NarrowJumpsChangeOnlyPc : Prop :=
  ∀ (s : State) (m : Imm5Mode) (bs rest : List Byte) (imm : Imm),
    let next := s.pc + BitVec.ofNat 32 (1 + imm.size)
    let jump := fun (byte0 : Byte) (i : Instr) (taken : Bool) =>
      (decodeImm m bs = .ok (imm, rest) → decode m (byte0 :: bs) = .ok (i, rest)) ∧
      exec i s = .next { s with pc := if taken then next + imm.value else next }
    jump 0xA7 (.jloB imm) s.cc.c8 ∧ jump 0xA8 (.jhsB imm) (!s.cc.c8) ∧
    jump 0xA9 (.jzB imm) s.cc.z8 ∧ jump 0xAA (.jnzB imm) (!s.cc.z8) ∧
    jump 0xAB (.jloW imm) s.cc.c16 ∧ jump 0xAC (.jhsW imm) (!s.cc.c16) ∧
    jump 0xAD (.jzW imm) s.cc.z16 ∧ jump 0xAE (.jnzW imm) (!s.cc.z16)

/-- `jsr` links in R15 and jumps, `j-A` jumps to A; nothing else changes (R136, R137). -/
def Obligations.CallLinksAndIndirectJump : Prop :=
  ∀ (s : State) (m : Imm5Mode) (bs rest : List Byte) (imm : Imm),
    let next := s.pc + BitVec.ofNat 32 (1 + imm.size)
    (decodeImm m bs = .ok (imm, rest) → decode m (0xAF :: bs) = .ok (.jsr imm, rest)) ∧
    exec (.jsr imm) s = .next { (s.setReg 15 next) with pc := next + imm.value } ∧
    decode m (0xFE :: bs) = .ok (.jA, bs) ∧
    exec .jA s = .next { s with pc := s.a }

/-! ## Loads and stores -/

/-- The nine loads where the address has memory: the destination receives the number in memory, widened by
LOAD_EXT, and nothing else changes but pc (R31 to R33, R36, R90 to R93, R97 to R99, R103 to R105, R109). -/
def Obligations.LoadsReadMemory : Prop :=
  ∀ (s : State) (i : Instr) (w : Width) (d : Option Reg) (ea : Word),
    loadParts s i = some (w, d, ea) → s.accessClass w ea = .ram →
    ∃ v : Word, Widened s.cfg.loadExt w (s.numberAt w ea) v ∧
      exec i s = .next { (s.setDest d v) with pc := s.pc + BitVec.ofNat 32 i.length }

/-- The nine loads from a device address: the value is the environment's, of the access width, widened as
any other; no memory changes (R41; log 19). -/
def Obligations.LoadsReadDevices : Prop :=
  ∀ (s : State) (i : Instr) (w : Width) (d : Option Reg) (ea : Word),
    loadParts s i = some (w, d, ea) → s.accessClass w ea = .device →
    ∃ v : Word,
      Widened s.cfg.loadExt w ((Config.deviceInput s.deviceReads).toNat % 2 ^ (8 * bytesOf w)) v ∧
      exec i s = .next
        { (s.setDest d v) with
          deviceReads := s.deviceReads + 1, pc := s.pc + BitVec.ofNat 32 i.length }

/-- The nine stores where the address has memory: the low bytes of the data register at the aligned
address, least significant first, every other byte and all other state unchanged but pc (R31, R32, R34,
R37, R90, R94 to R96, R100 to R102, R106 to R109). -/
def Obligations.StoresWriteMemory : Prop :=
  ∀ (s : State) (i : Instr) (w : Width) (ea v : Word),
    storeParts s i = some (w, ea, v) → s.accessClass w ea = .ram →
    ∃ t, exec i s = .next t ∧
      (∀ k, k < bytesOf w →
        (t.dataByte (alignedBase w ea + BitVec.ofNat 32 k)).toNat = v.toNat / 2 ^ (8 * k) % 2 ^ 8) ∧
      SameDataOutside s t (alignedBase w ea) (bytesOf w) ∧
      t = { s with dmem := t.dmem, pc := s.pc + BitVec.ofNat 32 i.length }

/-- The nine stores to a device address: one output event, in program order, with the aligned address and
the low bits of the data register; no memory changes (R41; that the events are kept as a list of records is
the model's choice, log 19). -/
def Obligations.StoresToDevicesAreOutputs : Prop :=
  ∀ (s : State) (i : Instr) (w : Width) (ea v : Word),
    storeParts s i = some (w, ea, v) → s.accessClass w ea = .device →
    exec i s = .next
      { s with
        outputs := s.outputs ++
          [⟨alignedBase w ea, w, BitVec.ofNat 32 (v.toNat % 2 ^ (8 * bytesOf w))⟩],
        pc := s.pc + BitVec.ofNat 32 i.length }

/-- A load or store where MemMap has nothing at the aligned address stops (R41, R109). -/
def Obligations.AccessOutsideMemoryFaults : Prop :=
  ∀ (s : State) (i : Instr),
    (∀ w d ea, loadParts s i = some (w, d, ea) → s.accessClass w ea = .absent →
      exec i s = .fault .accessOutsideMemory) ∧
    (∀ w ea v, storeParts s i = some (w, ea, v) → s.accessClass w ea = .absent →
      exec i s = .fault .accessOutsideMemory)

/-- The forced alignment: the low bits of an address are taken as zero and no misaligned access stops
(R32). -/
def Obligations.MisalignedAddressesAreAlignedDown : Prop :=
  ∀ (s : State) (w : Width) (a v : Word),
    (align w a).toNat = a.toNat - a.toNat % bytesOf w ∧
    s.memRead w a = s.memRead w (align w a) ∧
    s.memWrite w a v = s.memWrite w (align w a) v

/-- Mixed-size access after a 4-byte write: every narrower read sees the bytes the little-endian layout
puts there (R31, R49). -/
def Obligations.NarrowReadsSeeTheBytesOfAWideWrite : Prop :=
  ∀ (s t : State) (a v : Word),
    s.accessClass .dword a = .ram → s.memWrite .dword a v = .ok t →
    t.numberAt .dword a = v.toNat ∧
    t.numberAt .word (alignedBase .dword a) = v.toNat % 2 ^ 16 ∧
    t.numberAt .word (alignedBase .dword a + 2) = v.toNat / 2 ^ 16 ∧
    ∀ k, k < 4 →
      t.numberAt .byte (alignedBase .dword a + BitVec.ofNat 32 k) = v.toNat / 2 ^ (8 * k) % 2 ^ 8

/-- A read of memory returns the latest write of each byte, or what was there before, for every width
(R33, R34, R43). -/
def Obligations.ReadReturnsTheLatestWrite : Prop :=
  ∀ (s t : State) (w : Width) (a v : Word),
    s.accessClass w a = .ram → s.memWrite w a v = .ok t →
    (∃ r : Word, t.memRead w a = .ok (r, t) ∧ r.toNat = v.toNat % 2 ^ (8 * bytesOf w)) ∧
    SameDataOutside s t (alignedBase w a) (bytesOf w) ∧
    t = { s with dmem := t.dmem }

/-! ## The stack -/

/-- `push R0..Rn` into memory: Ri at (old R14) - 4(i+1), R14 itself stored as the address of its own slot,
R14 decreased by 4(n+1), all else unchanged (R160, R161; log 18, log 23). -/
def Obligations.PushRangeStoresEachRegister : Prop :=
  ∀ (s : State) (n : Reg),
    let sp := s.reg 14
    s.RamBelow sp (n.val + 1) →
    ∃ t, exec (.pushR n) s = .next t ∧
      (∀ k : Reg, k ≤ n → t.slot (pushedAt sp k.val) = s.pushedValue k) ∧
      SameDataOutside s t (alignedBase .dword (pushedAt sp n.val)) (4 * (n.val + 1)) ∧
      t = { (s.setReg 14 (pushedAt sp n.val)) with dmem := t.dmem, pc := s.pc + 2 }

/-- `pop R0..Rn` with n < 14 from memory: Rn from the slot at R14, R0 from the last, R14 increased by
4(n+1), all else unchanged (R160, R162; log 23). -/
def Obligations.PopRangeLoadsEachRegister : Prop :=
  ∀ (s : State) (n : Reg),
    let sp := s.reg 14
    n.val < 14 → s.RamAbove sp (n.val + 1) →
    ∃ t, exec (.popR n) s = .next t ∧
      (∀ k : Reg, k ≤ n → t.reg k = s.slot (poppedAt sp (n.val - k.val))) ∧
      t.reg 14 = poppedAt sp (n.val + 1) ∧
      (∀ k : Reg, n < k → k ≠ 14 → t.reg k = s.reg k) ∧
      t = { s with regs := t.regs, pc := s.pc + 2 }

/-- `pop R0..Rn` with R14 in the range: the slot of R14 replaces R14, 4 is added to the loaded value, and
R13 to R0 come from there (R162; log 18). -/
def Obligations.PopRangeThroughTheStackPointer : Prop :=
  ∀ (s : State) (n : Reg),
    let own := poppedAt (s.reg 14) (n.val - 14)
    let base := s.slot own + 4
    14 ≤ n.val → s.RamAbove (s.reg 14) (n.val - 13) → s.RamAbove base 14 →
    ∃ t, exec (.popR n) s = .next t ∧
      (∀ k : Reg, k.val < 14 → t.reg k = s.slot (poppedAt base (13 - k.val))) ∧
      t.reg 14 = poppedAt base 14 ∧
      t.reg 15 = (if n = 15 then s.slot (s.reg 14) else s.reg 15) ∧
      t = { s with regs := t.regs, pc := s.pc + 2 }

/-- `push srp` and `pop-a`, each with its byte: on memory, on a device, and where the slot has neither (R41,
R163, R164; log 19, log 23). -/
def Obligations.PushSrpAndPopA : Prop :=
  ∀ (s : State) (m : Imm5Mode) (bs : List Byte),
    let sp := s.reg 14
    decode m (0xF6 :: bs) = .ok (.pushSrp, bs) ∧ decode m (0xF7 :: bs) = .ok (.popA, bs) ∧
    (s.accessClass .dword (pushedAt sp 0) = .ram →
      ∃ t, exec .pushSrp s = .next t ∧ t.slot (pushedAt sp 0) = s.reg 15 ∧
        SameDataOutside s t (alignedBase .dword (pushedAt sp 0)) 4 ∧
        t = { (s.setReg 14 (pushedAt sp 0)) with dmem := t.dmem, pc := s.pc + 1 }) ∧
    (s.accessClass .dword (pushedAt sp 0) = .device →
      exec .pushSrp s = .next
        { (s.setReg 14 (pushedAt sp 0)) with
          outputs := s.outputs ++ [⟨alignedBase .dword (pushedAt sp 0), .dword, s.reg 15⟩],
          pc := s.pc + 1 }) ∧
    (s.accessClass .dword (pushedAt sp 0) = .absent → exec .pushSrp s = .fault .accessOutsideMemory) ∧
    (s.accessClass .dword sp = .ram →
      exec .popA s = .next { (s.setReg 14 (sp + 4)) with a := s.slot sp, pc := s.pc + 1 }) ∧
    (s.accessClass .dword sp = .device →
      exec .popA s = .next
        { (s.setReg 14 (sp + 4)) with
          a := Config.deviceInput s.deviceReads, deviceReads := s.deviceReads + 1, pc := s.pc + 1 }) ∧
    (s.accessClass .dword sp = .absent → exec .popA s = .fault .accessOutsideMemory)

/-- A push or pop of a range completes where each slot has memory or a device, and stops where a slot has
neither; `reti` too stops where one of its first four slots has neither (R41, R161, R162, R172). -/
def Obligations.StackNeedsEverySlot : Prop :=
  ∀ (s : State) (n : Reg),
    let sp := s.reg 14
    ((∀ k, k ≤ n.val → s.accessClass .dword (pushedAt sp k) ≠ .absent) →
      ∃ t, exec (.pushR n) s = .next t ∧ t.reg 14 = pushedAt sp n.val) ∧
    ((∃ k, k ≤ n.val ∧ s.accessClass .dword (pushedAt sp k) = .absent) →
      exec (.pushR n) s = .fault .accessOutsideMemory) ∧
    (n.val < 14 → (∀ k, k ≤ n.val → s.accessClass .dword (poppedAt sp k) ≠ .absent) →
      ∃ t, exec (.popR n) s = .next t ∧ t.reg 14 = poppedAt sp (n.val + 1)) ∧
    (n.val < 14 → (∃ k, k ≤ n.val ∧ s.accessClass .dword (poppedAt sp k) = .absent) →
      exec (.popR n) s = .fault .accessOutsideMemory) ∧
    (14 ≤ n.val → (∃ k, k ≤ n.val - 14 ∧ s.accessClass .dword (poppedAt sp k) = .absent) →
      exec (.popR n) s = .fault .accessOutsideMemory) ∧
    ((∃ k, k < 4 ∧ s.accessClass .dword (poppedAt sp k) = .absent) →
      exec .reti s = .fault .accessOutsideMemory)

/-- `push R0..Rn` and, later, `pop R0..Rn` with the same n and a balanced stack in between restore R0 to Rn
and R14, for every n, R14 inside the range included (R162; log 18). The state `u` between the two is any
that still has the stack pointer and the pushed bytes. -/
def Obligations.PopUndoesPush : Prop :=
  ∀ (s t u : State) (n : Reg),
    s.RamBelow (s.reg 14) (n.val + 1) → exec (.pushR n) s = .next t →
    u.reg 14 = t.reg 14 → u.cfg = t.cfg →
    (∀ a, InBlock (alignedBase .dword (pushedAt (s.reg 14) n.val)) (4 * (n.val + 1)) a →
      u.dataByte a = t.dataByte a) →
    ∃ v, exec (.popR n) u = .next v ∧
      (∀ k : Reg, k ≤ n ∨ k = 14 → v.reg k = s.reg k) ∧
      (∀ k : Reg, n < k → k ≠ 14 → v.reg k = u.reg k) ∧
      v = { u with regs := v.regs, pc := u.pc + 2 }

/-! ## Interrupts -/

/-- `ei` and `di` write IE and nothing else but pc (R170, R171; log 21). -/
def Obligations.EnableAndDisable : Prop :=
  ∀ s : State,
    exec .ei s = .next { s with ie := true, pc := s.pc + 2 } ∧
    exec .di s = .next { s with ie := false, pc := s.pc + 2 }

/-- An interrupt taken at a boundary: the 72-byte frame of R186 below R14, IE cleared, control at
INT_VECTOR, R0 to R13, R15, A and CC unchanged (R184 to R187; R14's own slot: log 18, the saved pc: log 22,
a misaligned R14: log 23; that the entry uses up one entry of the interrupt schedule is the model's choice,
log 20). -/
def Obligations.InterruptEntrySavesTheFrame : Prop :=
  ∀ s : State,
    let sp := s.reg 14
    s.ie = true → s.irq.head? = some true → s.RamBelow sp 18 →
    ∃ t, step s = .next t ∧
      (∀ k : Reg, k.val < 15 → t.slot (pushedAt sp k.val) = s.pushedValue k) ∧
      t.slot (pushedAt sp 15) = s.a ∧
      t.slot (pushedAt sp 16) = ccPack s.cfg.ccCodec s.cc ∧
      t.slot (pushedAt sp 17) = s.pc ∧
      SameDataOutside s t (alignedBase .dword (pushedAt sp 17)) 72 ∧
      t = { (s.setReg 14 (pushedAt sp 17)) with
            dmem := t.dmem, ie := false, pc := s.cfg.intVector, irq := s.irq.tail }

/-- Interrupt entry completes where each of its 18 slots has memory or a device, and stops where one has
neither (R41, R185; the request is the head of the schedule, log 20). -/
def Obligations.InterruptEntryNeedsEverySlot : Prop :=
  ∀ s : State,
    let sp := s.reg 14
    s.ie = true → s.irq.head? = some true →
    ((∀ k, k < 18 → s.accessClass .dword (pushedAt sp k) ≠ .absent) →
      ∃ t, step s = .next t ∧ t.pc = s.cfg.intVector ∧ t.ie = false ∧ t.reg 14 = pushedAt sp 17 ∧
        (∀ k : Reg, k ≠ 14 → t.reg k = s.reg k) ∧ t.a = s.a ∧ t.cc = s.cc) ∧
    ((∃ k, k < 18 ∧ s.accessClass .dword (pushedAt sp k) = .absent) →
      step s = .fault .accessOutsideMemory)

/-- `reti` on memory: pc, CC, A, then R14 to R0 are popped, through the popped R14; IE is set; R15 and
memory are unchanged (R172; log 18). -/
def Obligations.ReturnPopsTheFrame : Prop :=
  ∀ s : State,
    let sp := s.reg 14
    let base := s.slot (poppedAt sp 3) + 4
    s.RamAbove sp 4 → s.RamAbove base 14 →
    ∃ t, exec .reti s = .next t ∧
      (∀ k : Reg, k.val < 14 → t.reg k = s.slot (poppedAt base (13 - k.val))) ∧
      t.reg 14 = poppedAt base 14 ∧ t.reg 15 = s.reg 15 ∧
      t = { s with
            regs := t.regs, pc := s.slot sp, cc := ccUnpack s.cfg.ccCodec (s.slot (poppedAt sp 1)),
            a := s.slot (poppedAt sp 2), ie := true }

/-- Interrupt entry, a handler that leaves R14 and the frame as it found them, then `reti`: R0 to R14, A,
CC and pc are those of the interrupted program, IE is 1, R15 and memory are as the handler left them
(R188), whatever the layout of the CC slot. -/
def Obligations.ReturnRestoresTheInterruptedProgram : Prop :=
  ∀ s t u : State,
    let sp := s.reg 14
    s.ie = true → s.irq.head? = some true → s.RamBelow sp 18 → step s = .next t →
    u.reg 14 = t.reg 14 → u.cfg = t.cfg →
    (∀ a, InBlock (alignedBase .dword (pushedAt sp 17)) 72 a → u.dataByte a = t.dataByte a) →
    ∃ v, exec .reti u = .next v ∧
      (∀ k : Reg, k.val < 15 → v.reg k = s.reg k) ∧ v.reg 15 = u.reg 15 ∧
      v = { u with regs := v.regs, a := s.a, cc := s.cc, pc := s.pc, ie := true }

/-- While IE is 0 the environment's request has no effect on the processor (R184; the request is the head
of a schedule by the model's choice, log 20). -/
def Obligations.RequestIsIgnoredWhileDisabled : Prop :=
  ∀ (s : State) (b c : Bool) (l : List Bool), s.ie = false →
    step { s with irq := b :: l } = step { s with irq := c :: l }

/-- The suggested layout of the CC slot: the round trip, the bit of each flag, the high bits zero and
ignored (R186; log 14). -/
def Obligations.SuggestedCcLayout : Prop :=
  ∀ (cc : CC) (w : Word),
    ccUnpack .suggested (ccPack .suggested cc) = cc ∧
    ((ccPack .suggested cc).toNat = cc.n.toNat + 2 * cc.v.toNat + 4 * cc.z.toNat + 8 * cc.c.toNat +
      16 * cc.c8.toNat + 32 * cc.z8.toNat + 64 * cc.c16.toNat + 128 * cc.z16.toNat) ∧
    ccUnpack .suggested w = ccUnpack .suggested (w &&& 0xFF)

/-! ## What each instruction may read and write -/

/-- The "writes" column of R15: only the listed instructions change a flag, and only `A = A - Rx` and
`reti` one other than c (R15; log 17). -/
def Obligations.FlagWriters : Prop :=
  ∀ (i : Instr) (s t : State), exec i s = .next t →
    (writesCarry i = false → t.cc = s.cc) ∧
    (writesAllFlags i = false → t.cc = { s.cc with c := t.cc.c })

/-- The "reads" column of R15: an instruction that reads no flag does the same whatever the flags are;
`adc` depends on c alone, a conditional jump on the flags of its condition alone. -/
def Obligations.FlagReaders : Prop :=
  ∀ (i : Instr) (s t : State) (d : CC), exec i s = .next t →
    (readsFlags i = false →
      exec i { s with cc := d } = .next
        { t with cc := if writesAllFlags i then t.cc else if writesCarry i then { d with c := t.cc.c }
                       else d }) ∧
    (∀ x, i = .adcA x → d.c = s.cc.c →
      exec i { s with cc := d } = .next { t with cc := { d with c := t.cc.c } }) ∧
    (∀ imm, i = .jlt imm ∨ i = .jge imm → d.n = s.cc.n → d.v = s.cc.v →
      exec i { s with cc := d } = .next { t with cc := d }) ∧
    (∀ imm, i = .jlo imm ∨ i = .jhs imm → d.c = s.cc.c →
      exec i { s with cc := d } = .next { t with cc := d }) ∧
    (∀ imm, i = .jz imm ∨ i = .jnz imm → d.z = s.cc.z →
      exec i { s with cc := d } = .next { t with cc := d }) ∧
    (∀ imm, i = .jloB imm ∨ i = .jhsB imm → d.c8 = s.cc.c8 →
      exec i { s with cc := d } = .next { t with cc := d }) ∧
    (∀ imm, i = .jzB imm ∨ i = .jnzB imm → d.z8 = s.cc.z8 →
      exec i { s with cc := d } = .next { t with cc := d }) ∧
    (∀ imm, i = .jloW imm ∨ i = .jhsW imm → d.c16 = s.cc.c16 →
      exec i { s with cc := d } = .next { t with cc := d }) ∧
    (∀ imm, i = .jzW imm ∨ i = .jnzW imm → d.z16 = s.cc.z16 →
      exec i { s with cc := d } = .next { t with cc := d })

/-- IE: written by `ei` (1), `di` (0), `reti` (1) and interrupt entry (0) alone, read by no instruction
(whatever it was, everything else comes out the same), and 0 after reset on every platform (R17). -/
def Obligations.InterruptEnableHasFourWriters : Prop :=
  (∀ (i : Instr) (s t : State) (b : Bool), exec i s = .next t →
    (writesIE i = false → t.ie = s.ie) ∧ (i = .ei ∨ i = .reti → t.ie = true) ∧
    (i = .di → t.ie = false) ∧
    exec i { s with ie := b } = .next { t with ie := if writesIE i then t.ie else b }) ∧
  (∀ s t : State, s.ie = true → s.irq.head? = some true → step s = .next t → t.ie = false) ∧
  (∀ cfg : Config, (State.resetWith cfg).ie = false)

/-- No instruction touches a general register it does not name, beyond the implied writers of R11: every
other register keeps its value. -/
def Obligations.UnnamedRegistersAreKept : Prop :=
  ∀ (i : Instr) (s t : State) (r : Reg), exec i s = .next t → mayWriteReg i r = false →
    t.reg r = s.reg r

/-- The instructions that R12 lists as neither reading nor writing A: they leave A as it is, and do the
same whatever A holds. -/
def Obligations.AccumulatorIsLeftAlone : Prop :=
  ∀ (i : Instr) (s t : State) (v : Word), leavesA i = true → exec i s = .next t →
    t.a = s.a ∧ exec i { s with a := v } = .next { t with a := v }

/-- Every instruction except the jumps and `reti` ends at `next` (R7, R13). -/
def Obligations.ProgramCounterAdvancesByTheLength : Prop :=
  ∀ (i : Instr) (s t : State), controls i = false → exec i s = .next t →
    t.pc = s.pc + BitVec.ofNat 32 i.length

/-- Data memory is written by the stores and the pushes alone, and devices are read by the loads and pops
and written by the stores and pushes alone (R20, R41; the list of output events and the counter of device
reads are the model's choice, log 19). -/
def Obligations.DataMemoryIsWrittenByStoresAndPushes : Prop :=
  ∀ (i : Instr) (s t : State), exec i s = .next t →
    (storesData i = false → (∀ a, t.dataByte a = s.dataByte a) ∧ t.outputs = s.outputs) ∧
    (loadsData i = false → t.deviceReads = s.deviceReads)

/-- No instruction reads or writes instruction memory: it keeps its contents, and with any other contents
the instruction does the same (R20, R30). -/
def Obligations.InstructionsDoNotTouchInstructionMemory : Prop :=
  ∀ (i : Instr) (s t : State) (m : Memory), exec i s = .next t →
    t.imem = s.imem ∧ exec i { s with imem := m } = .next { t with imem := m }

/-- Along every run the platform's parameters and the program image stay as they are, and the
environment's schedule is only used up (R23; log 20, log 29). -/
def Obligations.PlatformIsFixedForARun : Prop :=
  ∀ s t : State, Steps s t →
    t.cfg = s.cfg ∧ t.imem = s.imem ∧ ∃ k, t.irq = s.irq.drop k

/-- Stores and fetch: with separate memories a step never changes what is fetched; with one memory every
fetch sees the bytes as they stand in data memory (R30, R47; log 5). That under one memory nothing is fetched
where the map says device or absent is the model's choice (log 4). -/
def Obligations.StoresAndFetch : Prop :=
  ∀ (s t : State) (a : Word), step s = .next t →
    (s.cfg.memOrg = .harvard → t.fetch a = s.fetch a) ∧
    (s.cfg.memOrg = .unified → classify s.cfg.memMap a = .ram → t.fetch a = some (t.dataByte a)) ∧
    (s.cfg.memOrg = .unified → classify s.cfg.memMap a ≠ .ram → t.fetch a = none)

/-! ## Invariants, reset and the end of a run -/

/-- Every step keeps the invariant: both memories in canonical form, every output event aligned and of its
width (that output events are kept as a list is the model's choice, log 19). -/
def Obligations.StepKeepsTheInvariant : Prop :=
  ∀ s t : State, s.Inv → step s = .next t → t.Inv

/-- The invariant holds after reset, on every platform. -/
def Obligations.ResetSatisfiesTheInvariant : Prop :=
  ∀ cfg : Config, (State.resetWith cfg).Inv

/-- After reset interrupts are disabled and execution begins at RESET_PC, on every platform (R22, R200,
R201); the other values of the reset state are the model's choice and not claimed here (log 6, 7, 19,
20). -/
def Obligations.ResetDisablesInterrupts : Prop :=
  ∀ cfg : Config,
    (State.resetWith cfg).ie = false ∧ (State.resetWith cfg).pc = cfg.resetPc ∧
    State.reset.ie = false ∧ State.reset.pc = State.reset.cfg.resetPc

/-- At the end of a run the processor executes the same jump for ever: the next state differs only in the
boundary that is past, and is an end of the run again (R197, R206; the end of a run: log 30; that a step uses
up one entry of the interrupt schedule is the model's choice, log 20). -/
def Obligations.EndOfRunLoops : Prop :=
  ∀ s : State, s.Ended →
    step s = .next { s with irq := s.irq.tail } ∧ State.Ended { s with irq := s.irq.tail }
end

