-- ==== Sys2Proof/Laws/Memory.lean ====
section
/-! SUPPORT. The laws of a memory: what a read after a write gives, and that a write keeps the canonical
form. -/

namespace Sys2Proof.Machine.Memory

theorem find_remove_same (m : Memory) (a : Nat) : (m.remove a).find a = none := by
  induction m with
  | nil => rfl
  | cons c m ih =>
    obtain ⟨k, b⟩ := c
    by_cases h : k = a
    · simpa [remove, h] using ih
    · simpa [remove, h, find] using ih

theorem find_remove_other (m : Memory) {a a' : Nat} (h : a' ≠ a) : (m.remove a).find a' = m.find a' := by
  induction m with
  | nil => rfl
  | cons c m ih =>
    obtain ⟨k, b⟩ := c
    by_cases hk : k = a
    · have hne : ¬ k = a' := fun e => h (e.symm.trans hk)
      have : remove ((k, b) :: m) a = remove m a := by simp [remove, hk]
      rw [this, ih, find, if_neg hne]
    · have : remove ((k, b) :: m) a = (k, b) :: remove m a := by simp [remove, hk]
      rw [this, find, find, ih]

theorem find_place_same (m : Memory) (a : Nat) (b : Byte) (h : m.find a = none) :
    (m.place a b).find a = some b := by
  induction m with
  | nil => simp [place, find]
  | cons c m ih =>
    obtain ⟨k, d⟩ := c
    have hk : ¬ k = a := by
      intro e
      simp [find, e] at h
    rw [find, if_neg hk] at h
    unfold place
    split
    · simp [find]
    · rw [find, if_neg hk, ih h]

theorem find_place_other (m : Memory) {a a' : Nat} (b : Byte) (h : a' ≠ a) :
    (m.place a b).find a' = m.find a' := by
  induction m with
  | nil => simp [place, find, Ne.symm h]
  | cons c m ih =>
    obtain ⟨k, d⟩ := c
    unfold place
    split
    · rw [find, if_neg (Ne.symm h)]
    · rw [find, find, ih]

/-- What a read after a write gives. -/
theorem read_write (u : Option Byte) (m : Memory) (a a' : Nat) (b : Byte) :
    (m.write u a b).read u a' = if a' = a then some b else m.read u a' := by
  unfold write read
  split
  · rename_i hu
    split
    · rename_i h
      rw [h, find_remove_same, hu]
      rfl
    · rename_i h
      rw [find_remove_other m h]
  · split
    · rename_i h
      rw [h, find_place_same _ _ _ (find_remove_same m a)]
      rfl
    · rename_i h
      rw [find_place_other _ _ h, find_remove_other m h]

theorem wfFrom_mono {u : Option Byte} {m : Memory} {lo lo' : Nat} (h : m.wfFrom u lo) (hl : lo' ≤ lo) :
    m.wfFrom u lo' := by
  cases m with
  | nil => rfl
  | cons c m =>
    simp only [wfFrom, Bool.and_eq_true, decide_eq_true_eq] at h ⊢
    exact ⟨⟨⟨by omega, h.1.1.2⟩, h.1.2⟩, h.2⟩

theorem wfFrom_remove {u : Option Byte} (a : Nat) {m : Memory} {lo : Nat} (h : m.wfFrom u lo) :
    (m.remove a).wfFrom u lo := by
  induction m generalizing lo with
  | nil => rfl
  | cons c m ih =>
    obtain ⟨k, b⟩ := c
    simp only [wfFrom, Bool.and_eq_true, decide_eq_true_eq] at h
    by_cases hk : k = a
    · have : remove ((k, b) :: m) a = remove m a := by simp [remove, hk]
      rw [this]
      exact wfFrom_mono (ih h.2) (by omega)
    · have : remove ((k, b) :: m) a = (k, b) :: remove m a := by simp [remove, hk]
      rw [this]
      simp only [wfFrom, Bool.and_eq_true, decide_eq_true_eq]
      exact ⟨h.1, ih h.2⟩

theorem wfFrom_place {u : Option Byte} {a : Nat} {b : Byte} (ha : a < 2 ^ 32) (hb : u ≠ some b)
    {m : Memory} {lo : Nat} (h : m.wfFrom u lo) (hl : lo ≤ a) (hn : m.find a = none) :
    (m.place a b).wfFrom u lo := by
  induction m generalizing lo with
  | nil => simp [place, wfFrom, hl, hb]; omega
  | cons c m ih =>
    obtain ⟨k, d⟩ := c
    have hk : ¬ k = a := by
      intro e
      simp [find, e] at hn
    rw [find, if_neg hk] at hn
    simp only [wfFrom, Bool.and_eq_true, decide_eq_true_eq] at h
    unfold place
    split
    · simp only [wfFrom, Bool.and_eq_true, decide_eq_true_eq]
      exact ⟨⟨⟨hl, ha⟩, hb⟩, ⟨⟨by omega, h.1.1.2⟩, h.1.2⟩, h.2⟩
    · simp only [wfFrom, Bool.and_eq_true, decide_eq_true_eq]
      exact ⟨h.1, ih h.2 (by omega) hn⟩

/-- A write keeps the canonical form. -/
theorem wf_write {u : Option Byte} {m : Memory} (a : Nat) (b : Byte) (ha : a < 2 ^ 32) (h : m.wf u) :
    (m.write u a b).wf u := by
  unfold write
  split
  · exact wfFrom_remove a h
  · rename_i hu
    exact wfFrom_place ha hu (wfFrom_remove a h) (Nat.zero_le a) (find_remove_same m a)

end Sys2Proof.Machine.Memory
end

