-- ==== Sys2Proof/Laws/State.lean ====
section
/-! SUPPORT. The small laws of the state: one lemma per field per update, and what an accessor reads after
an update. -/

namespace Sys2Proof.Machine

namespace State

/-! ## Registers -/

@[simp] theorem reg_setReg_same (s : State) (i : Reg) (v : Word) : (s.setReg i v).reg i = v := by
  simp [reg, setReg]

@[simp] theorem reg_setReg_other (s : State) {i j : Reg} (v : Word) (h : j ≠ i) :
    (s.setReg i v).reg j = s.reg j := by
  have : ¬ i.val = j.val := fun e => h (Fin.ext e.symm)
  simp [reg, setReg, this]

theorem reg_setReg (s : State) (i j : Reg) (v : Word) :
    (s.setReg i v).reg j = if j = i then v else s.reg j := by
  split
  · rename_i h
    rw [h, reg_setReg_same]
  · rename_i h
    rw [reg_setReg_other s v h]

/-- Two states with the same registers by number have the same register file. -/
theorem regs_ext {s t : State} (h : ∀ r, t.reg r = s.reg r) : t.regs = s.regs := by
  apply Vector.ext
  intro i hi
  exact h ⟨i, hi⟩

/-- Two states that agree on every register and every other field are the same. -/
theorem ext_reg {s t : State} (h : ∀ r, t.reg r = s.reg r) (h' : t = { s with regs := t.regs }) :
    t = s := by
  rw [h', regs_ext h]

/-! ## One lemma per field per update -/

@[simp] theorem setReg_a (s : State) (i : Reg) (v : Word) : (s.setReg i v).a = s.a := rfl
@[simp] theorem setReg_pc (s : State) (i : Reg) (v : Word) : (s.setReg i v).pc = s.pc := rfl
@[simp] theorem setReg_cc (s : State) (i : Reg) (v : Word) : (s.setReg i v).cc = s.cc := rfl
@[simp] theorem setReg_ie (s : State) (i : Reg) (v : Word) : (s.setReg i v).ie = s.ie := rfl
@[simp] theorem setReg_irq (s : State) (i : Reg) (v : Word) : (s.setReg i v).irq = s.irq := rfl
@[simp] theorem setReg_dmem (s : State) (i : Reg) (v : Word) : (s.setReg i v).dmem = s.dmem := rfl
@[simp] theorem setReg_imem (s : State) (i : Reg) (v : Word) : (s.setReg i v).imem = s.imem := rfl
@[simp] theorem setReg_outputs (s : State) (i : Reg) (v : Word) : (s.setReg i v).outputs = s.outputs := rfl
@[simp] theorem setReg_deviceReads (s : State) (i : Reg) (v : Word) : (s.setReg i v).deviceReads = s.deviceReads := rfl
@[simp] theorem setReg_cfg (s : State) (i : Reg) (v : Word) : (s.setReg i v).cfg = s.cfg := rfl

@[simp] theorem setDataByte_regs (s : State) (x : Word) (b : Byte) : (s.setDataByte x b).regs = s.regs := rfl
@[simp] theorem setDataByte_a (s : State) (x : Word) (b : Byte) : (s.setDataByte x b).a = s.a := rfl
@[simp] theorem setDataByte_pc (s : State) (x : Word) (b : Byte) : (s.setDataByte x b).pc = s.pc := rfl
@[simp] theorem setDataByte_cc (s : State) (x : Word) (b : Byte) : (s.setDataByte x b).cc = s.cc := rfl
@[simp] theorem setDataByte_ie (s : State) (x : Word) (b : Byte) : (s.setDataByte x b).ie = s.ie := rfl
@[simp] theorem setDataByte_irq (s : State) (x : Word) (b : Byte) : (s.setDataByte x b).irq = s.irq := rfl
@[simp] theorem setDataByte_imem (s : State) (x : Word) (b : Byte) : (s.setDataByte x b).imem = s.imem := rfl
@[simp] theorem setDataByte_outputs (s : State) (x : Word) (b : Byte) : (s.setDataByte x b).outputs = s.outputs := rfl
@[simp] theorem setDataByte_deviceReads (s : State) (x : Word) (b : Byte) : (s.setDataByte x b).deviceReads = s.deviceReads := rfl
@[simp] theorem setDataByte_cfg (s : State) (x : Word) (b : Byte) : (s.setDataByte x b).cfg = s.cfg := rfl

@[simp] theorem moveSp_a (s : State) (d : Word) : (s.moveSp d).a = s.a := rfl
@[simp] theorem moveSp_pc (s : State) (d : Word) : (s.moveSp d).pc = s.pc := rfl
@[simp] theorem moveSp_cc (s : State) (d : Word) : (s.moveSp d).cc = s.cc := rfl
@[simp] theorem moveSp_ie (s : State) (d : Word) : (s.moveSp d).ie = s.ie := rfl
@[simp] theorem moveSp_irq (s : State) (d : Word) : (s.moveSp d).irq = s.irq := rfl
@[simp] theorem moveSp_dmem (s : State) (d : Word) : (s.moveSp d).dmem = s.dmem := rfl
@[simp] theorem moveSp_imem (s : State) (d : Word) : (s.moveSp d).imem = s.imem := rfl
@[simp] theorem moveSp_outputs (s : State) (d : Word) : (s.moveSp d).outputs = s.outputs := rfl
@[simp] theorem moveSp_deviceReads (s : State) (d : Word) : (s.moveSp d).deviceReads = s.deviceReads := rfl
@[simp] theorem moveSp_cfg (s : State) (d : Word) : (s.moveSp d).cfg = s.cfg := rfl

@[simp] theorem setAcc_regs (s : State) (v : Word) : (s.setAcc v).regs = s.regs := rfl
@[simp] theorem setAcc_pc (s : State) (v : Word) : (s.setAcc v).pc = s.pc := rfl
@[simp] theorem setAcc_cc (s : State) (v : Word) : (s.setAcc v).cc = s.cc := rfl
@[simp] theorem setAcc_ie (s : State) (v : Word) : (s.setAcc v).ie = s.ie := rfl
@[simp] theorem setAcc_irq (s : State) (v : Word) : (s.setAcc v).irq = s.irq := rfl
@[simp] theorem setAcc_dmem (s : State) (v : Word) : (s.setAcc v).dmem = s.dmem := rfl
@[simp] theorem setAcc_imem (s : State) (v : Word) : (s.setAcc v).imem = s.imem := rfl
@[simp] theorem setAcc_outputs (s : State) (v : Word) : (s.setAcc v).outputs = s.outputs := rfl
@[simp] theorem setAcc_deviceReads (s : State) (v : Word) : (s.setAcc v).deviceReads = s.deviceReads := rfl
@[simp] theorem setAcc_cfg (s : State) (v : Word) : (s.setAcc v).cfg = s.cfg := rfl

@[simp] theorem setAccC_regs (s : State) (v : Word) (b : Bool) : (s.setAccC v b).regs = s.regs := rfl
@[simp] theorem setAccC_pc (s : State) (v : Word) (b : Bool) : (s.setAccC v b).pc = s.pc := rfl
@[simp] theorem setAccC_ie (s : State) (v : Word) (b : Bool) : (s.setAccC v b).ie = s.ie := rfl
@[simp] theorem setAccC_irq (s : State) (v : Word) (b : Bool) : (s.setAccC v b).irq = s.irq := rfl
@[simp] theorem setAccC_dmem (s : State) (v : Word) (b : Bool) : (s.setAccC v b).dmem = s.dmem := rfl
@[simp] theorem setAccC_imem (s : State) (v : Word) (b : Bool) : (s.setAccC v b).imem = s.imem := rfl
@[simp] theorem setAccC_outputs (s : State) (v : Word) (b : Bool) : (s.setAccC v b).outputs = s.outputs := rfl
@[simp] theorem setAccC_deviceReads (s : State) (v : Word) (b : Bool) : (s.setAccC v b).deviceReads = s.deviceReads := rfl
@[simp] theorem setAccC_cfg (s : State) (v : Word) (b : Bool) : (s.setAccC v b).cfg = s.cfg := rfl

@[simp] theorem advance_regs (s : State) (n : Nat) : (s.advance n).regs = s.regs := rfl
@[simp] theorem advance_a (s : State) (n : Nat) : (s.advance n).a = s.a := rfl
@[simp] theorem advance_cc (s : State) (n : Nat) : (s.advance n).cc = s.cc := rfl
@[simp] theorem advance_ie (s : State) (n : Nat) : (s.advance n).ie = s.ie := rfl
@[simp] theorem advance_irq (s : State) (n : Nat) : (s.advance n).irq = s.irq := rfl
@[simp] theorem advance_dmem (s : State) (n : Nat) : (s.advance n).dmem = s.dmem := rfl
@[simp] theorem advance_imem (s : State) (n : Nat) : (s.advance n).imem = s.imem := rfl
@[simp] theorem advance_outputs (s : State) (n : Nat) : (s.advance n).outputs = s.outputs := rfl
@[simp] theorem advance_deviceReads (s : State) (n : Nat) : (s.advance n).deviceReads = s.deviceReads := rfl
@[simp] theorem advance_cfg (s : State) (n : Nat) : (s.advance n).cfg = s.cfg := rfl

@[simp] theorem jumpIf_regs (s : State) (b : Bool) (imm : Imm) : (s.jumpIf b imm).regs = s.regs := rfl
@[simp] theorem jumpIf_a (s : State) (b : Bool) (imm : Imm) : (s.jumpIf b imm).a = s.a := rfl
@[simp] theorem jumpIf_cc (s : State) (b : Bool) (imm : Imm) : (s.jumpIf b imm).cc = s.cc := rfl
@[simp] theorem jumpIf_ie (s : State) (b : Bool) (imm : Imm) : (s.jumpIf b imm).ie = s.ie := rfl
@[simp] theorem jumpIf_irq (s : State) (b : Bool) (imm : Imm) : (s.jumpIf b imm).irq = s.irq := rfl
@[simp] theorem jumpIf_dmem (s : State) (b : Bool) (imm : Imm) : (s.jumpIf b imm).dmem = s.dmem := rfl
@[simp] theorem jumpIf_imem (s : State) (b : Bool) (imm : Imm) : (s.jumpIf b imm).imem = s.imem := rfl
@[simp] theorem jumpIf_outputs (s : State) (b : Bool) (imm : Imm) : (s.jumpIf b imm).outputs = s.outputs := rfl
@[simp] theorem jumpIf_deviceReads (s : State) (b : Bool) (imm : Imm) : (s.jumpIf b imm).deviceReads = s.deviceReads := rfl
@[simp] theorem jumpIf_cfg (s : State) (b : Bool) (imm : Imm) : (s.jumpIf b imm).cfg = s.cfg := rfl

@[simp] theorem passBoundary_regs (s : State) : (s.passBoundary).regs = s.regs := rfl
@[simp] theorem passBoundary_a (s : State) : (s.passBoundary).a = s.a := rfl
@[simp] theorem passBoundary_pc (s : State) : (s.passBoundary).pc = s.pc := rfl
@[simp] theorem passBoundary_cc (s : State) : (s.passBoundary).cc = s.cc := rfl
@[simp] theorem passBoundary_ie (s : State) : (s.passBoundary).ie = s.ie := rfl
@[simp] theorem passBoundary_dmem (s : State) : (s.passBoundary).dmem = s.dmem := rfl
@[simp] theorem passBoundary_imem (s : State) : (s.passBoundary).imem = s.imem := rfl
@[simp] theorem passBoundary_outputs (s : State) : (s.passBoundary).outputs = s.outputs := rfl
@[simp] theorem passBoundary_deviceReads (s : State) : (s.passBoundary).deviceReads = s.deviceReads := rfl
@[simp] theorem passBoundary_cfg (s : State) : (s.passBoundary).cfg = s.cfg := rfl

@[simp] theorem setAcc_a (s : State) (v : Word) : (s.setAcc v).a = v := rfl
@[simp] theorem setAccC_a (s : State) (v : Word) (b : Bool) : (s.setAccC v b).a = v := rfl
@[simp] theorem setAccC_cc (s : State) (v : Word) (b : Bool) : (s.setAccC v b).cc = withC s.cc b := rfl
@[simp] theorem advance_pc (s : State) (n : Nat) : (s.advance n).pc = s.pc + BitVec.ofNat 32 n := rfl
@[simp] theorem passBoundary_irq (s : State) : s.passBoundary.irq = s.irq.tail := rfl
@[simp] theorem reg_setDataByte (s : State) (x : Word) (b : Byte) (r : Reg) :
    (s.setDataByte x b).reg r = s.reg r := rfl
@[simp] theorem reg_moveSp_same (s : State) (d : Word) : (s.moveSp d).reg .sp = s.reg .sp + d :=
  reg_setReg_same s .sp _
@[simp] theorem reg_moveSp_other (s : State) (d : Word) {r : Reg} (h : r ≠ .sp) :
    (s.moveSp d).reg r = s.reg r := reg_setReg_other s _ h

/-! ## Bytes of data memory -/

theorem dataByte_setDataByte (s : State) (a b : Word) (v : Byte) :
    (s.setDataByte a v).dataByte b = if b = a then v else s.dataByte b := by
  have h : (b.toNat = a.toNat) = (b = a) := propext ⟨BitVec.eq_of_toNat_eq, congrArg _⟩
  unfold dataByte setDataByte
  rw [Memory.read_write]
  simp only [h]
  split <;> rfl

end State

end Sys2Proof.Machine
end

