-- ==== Sys2Proof/Laws/Address.lean ====
section
/-! SUPPORT. Addresses: alignment as arithmetic, the slots of the stack, and which bytes an access covers. -/

namespace Sys2Proof.Machine

theorem toNat_append (n k : Nat) (x : BitVec n) (y : BitVec k) :
    (x ++ y).toNat = x.toNat * 2 ^ k + y.toNat := by
  rw [BitVec.toNat_append, ← Nat.shiftLeft_add_eq_or_of_lt y.isLt, Nat.shiftLeft_eq]

theorem toNat_extract (n : Nat) (v : BitVec n) (lo len : Nat) :
    (v.extractLsb' lo len).toNat = v.toNat / 2 ^ lo % 2 ^ len := by
  rw [BitVec.extractLsb'_toNat, Nat.shiftRight_eq_div_pow]

theorem bytesOf_pos (w : Width) : 0 < bytesOf w := by cases w <;> decide

theorem bytesOf_le (w : Width) : bytesOf w ≤ 4 := by cases w <;> decide

theorem align_word (a : Word) : align .word a = a.extractLsb' 1 31 ++ 0#1 := by
  apply BitVec.eq_of_getLsbD_eq
  intro i hi
  simp only [align, BitVec.getLsbD_and, BitVec.getLsbD_append, BitVec.getLsbD_extractLsb']
  interval_cases i <;> simp

theorem align_dword (a : Word) : align .dword a = a.extractLsb' 2 30 ++ 0#2 := by
  apply BitVec.eq_of_getLsbD_eq
  intro i hi
  simp only [align, BitVec.getLsbD_and, BitVec.getLsbD_append, BitVec.getLsbD_extractLsb']
  interval_cases i <;> simp

/-- Aligning down subtracts the remainder. -/
theorem align_toNat (w : Width) (a : Word) : (align w a).toNat = a.toNat - a.toNat % bytesOf w := by
  have ha := a.isLt
  cases w
  · simp [align, bytesOf, Nat.mod_one]
  · rw [align_word, toNat_append, toNat_extract]
    simp only [bytesOf, BitVec.toNat_ofNat]
    omega
  · rw [align_dword, toNat_append, toNat_extract]
    simp only [bytesOf, BitVec.toNat_ofNat]
    omega

theorem alignedBase_toNat (w : Width) (a : Word) :
    (alignedBase w a).toNat = a.toNat - a.toNat % bytesOf w := by
  have ha := a.isLt
  have h1 := Nat.mod_le a.toNat (bytesOf w)
  have h2 := Nat.mod_lt a.toNat (bytesOf_pos w)
  have h3 := bytesOf_le w
  unfold alignedBase
  rw [BitVec.toNat_sub, BitVec.toNat_ofNat]
  generalize a.toNat % bytesOf w = r at *
  omega

theorem align_eq (w : Width) (a : Word) : align w a = alignedBase w a :=
  BitVec.eq_of_toNat_eq (by rw [align_toNat, alignedBase_toNat])

theorem alignedBase_idem (w : Width) (a : Word) : alignedBase w (alignedBase w a) = alignedBase w a := by
  apply BitVec.eq_of_toNat_eq
  rw [alignedBase_toNat, alignedBase_toNat]
  cases w <;> simp only [bytesOf] <;> omega

theorem alignedBase_mod (w : Width) (a : Word) : (alignedBase w a).toNat % bytesOf w = 0 := by
  rw [alignedBase_toNat]
  cases w <;> simp only [bytesOf] <;> omega

/-- Four-byte alignment commutes with moving by a multiple of 4. -/
theorem alignedBase_add (a : Word) (k : Nat) :
    alignedBase .dword (a + BitVec.ofNat 32 (4 * k)) = alignedBase .dword a + BitVec.ofNat 32 (4 * k) := by
  apply BitVec.eq_of_toNat_eq
  have ha := a.isLt
  rw [alignedBase_toNat, BitVec.toNat_add, BitVec.toNat_add, alignedBase_toNat, BitVec.toNat_ofNat]
  simp only [bytesOf]
  omega

theorem alignedBase_sub (a : Word) (k : Nat) :
    alignedBase .dword (a - BitVec.ofNat 32 (4 * k)) = alignedBase .dword a - BitVec.ofNat 32 (4 * k) := by
  apply BitVec.eq_of_toNat_eq
  have ha := a.isLt
  rw [alignedBase_toNat, BitVec.toNat_sub, BitVec.toNat_sub, alignedBase_toNat, BitVec.toNat_ofNat]
  simp only [bytesOf]
  omega

theorem alignedBase_pushedAt (sp : Word) (k : Nat) :
    alignedBase .dword (pushedAt sp k) = alignedBase .dword sp - BitVec.ofNat 32 (4 * (k + 1)) :=
  alignedBase_sub sp (k + 1)

theorem alignedBase_poppedAt (sp : Word) (k : Nat) :
    alignedBase .dword (poppedAt sp k) = alignedBase .dword sp + BitVec.ofNat 32 (4 * k) :=
  alignedBase_add sp k

theorem pushedAt_zero (sp : Word) : pushedAt sp 0 = sp + (-4) := by
  rw [pushedAt]
  bv_omega

theorem pushedAt_succ (sp : Word) (k : Nat) : pushedAt sp (k + 1) = pushedAt sp k + (-4) := by
  unfold pushedAt
  have : BitVec.ofNat 32 (4 * (k + 1 + 1)) = BitVec.ofNat 32 (4 * (k + 1)) + 4 := by
    rw [show 4 * (k + 1 + 1) = 4 * (k + 1) + 4 from rfl, BitVec.ofNat_add]
    rfl
  rw [this]
  bv_omega

theorem poppedAt_zero (sp : Word) : poppedAt sp 0 = sp := by simp [poppedAt]

theorem poppedAt_one (sp : Word) : poppedAt sp 1 = sp + 4 := rfl

theorem poppedAt_add (sp : Word) (j k : Nat) : poppedAt (poppedAt sp j) k = poppedAt sp (j + k) := by
  unfold poppedAt
  rw [Nat.mul_add, BitVec.ofNat_add, BitVec.add_assoc]

theorem poppedAt_succ (sp : Word) (k : Nat) : poppedAt (sp + 4) k = poppedAt sp (k + 1) := by
  rw [← poppedAt_one, poppedAt_add, Nat.add_comm]

/-- Popping back over pushed slots. -/
theorem poppedAt_pushedAt (sp : Word) {j k : Nat} (h : j ≤ k) :
    poppedAt (pushedAt sp k) j = if j = 0 then pushedAt sp k else pushedAt sp (k - j) := by
  split
  · rename_i h0
    rw [h0, poppedAt_zero]
  · unfold poppedAt pushedAt
    have : 4 * (k + 1) = 4 * (k - j + 1) + 4 * j := by omega
    rw [this, BitVec.ofNat_add]
    generalize BitVec.ofNat 32 (4 * (k - j + 1)) = x
    generalize BitVec.ofNat 32 (4 * j) = y
    bv_omega

theorem poppedAt_pushedAt_self (sp : Word) (k : Nat) : poppedAt (pushedAt sp k) (k + 1) = sp := by
  unfold poppedAt pushedAt
  generalize BitVec.ofNat 32 (4 * (k + 1)) = x
  bv_omega

end Sys2Proof.Machine
end

