-- ==== Sys2Proof/Laws/Decode.lean ====
section
/-! SUPPORT. The small laws of the fields of a byte, and the immediate read back. -/

namespace Sys2Proof

@[simp] theorem msn_opByte (hi lo : BitVec 4) : msn (opByte hi lo) = hi := by
  revert hi lo
  decide

@[simp] theorem lsn_opByte (hi lo : BitVec 4) : lsn (opByte hi lo) = lo := by
  revert hi lo
  decide

theorem opByte_fields (b : Byte) : opByte (msn b) (lsn b) = b := by
  revert b
  decide

@[simp] theorem regNib_regField (b : Byte) : regNib (regField b) = lsn b := rfl

@[simp] theorem regField_opByte (hi : BitVec 4) (x : Reg) : regField (opByte hi (regNib x)) = x := by
  unfold regField
  rw [lsn_opByte]
  rfl

@[simp] theorem low7_moreByte (g : BitVec 7) : low7 (moreByte g) = g := by
  revert g
  decide

@[simp] theorem low7_lastByte (g : BitVec 7) : low7 (lastByte g) = g := by
  revert g
  decide

@[simp] theorem continues_moreByte (g : BitVec 7) : continues (moreByte g) = true := by
  revert g
  decide

@[simp] theorem continues_lastByte (g : BitVec 7) : continues (lastByte g) = false := by
  revert g
  decide

theorem moreByte_low7 {b : Byte} (h : continues b = true) : moreByte (low7 b) = b := by
  revert b
  decide

theorem lastByte_low7 {b : Byte} (h : continues b = false) : lastByte (low7 b) = b := by
  revert b
  decide

@[simp] theorem lsn_lastByte (k : BitVec 4) : lsn (lastByte (0#3 ++ k)) = k := by
  revert k
  decide

@[simp] theorem lsn_moreByte (k : BitVec 4) : lsn (moreByte (0#3 ++ k)) = k := by
  revert k
  decide

@[simp] theorem high_lastByte (k : BitVec 4) : (lastByte (0#3 ++ k)).extractLsb' 4 3 = 0 := by
  revert k
  decide

theorem extract_append (v : Word) (lo n k : Nat) :
    v.extractLsb' (lo + k) n ++ v.extractLsb' lo k = v.extractLsb' lo (n + k) := by
  apply BitVec.eq_of_getLsbD_eq
  intro i hi
  simp only [BitVec.getLsbD_append, BitVec.getLsbD_extractLsb']
  by_cases h : i < k
  · simp [h, hi]
  · have h1 : i - k < n := by omega
    have h2 : lo + k + (i - k) = lo + i := by omega
    simp [h, hi, h1, h2]

/-- Reading an encoded immediate gives it back, whatever follows (R58 to R61). -/
theorem decodeImm_encodeImm (m : Imm5Mode) (imm : Imm) (rest : List Byte) (h : imm.wf = true) :
    decodeImm m (encodeImm m imm ++ rest) = .ok (imm, rest) := by
  obtain ⟨size, v⟩ := imm
  unfold Imm.wf at h
  split at h
  · rename_i hs
    simp only at hs h
    subst hs
    simp only [fitsSigned, decide_eq_true_eq] at h
    simp [encodeImm, decodeImm, h]
  · rename_i hs
    simp only at hs h
    subst hs
    simp only [fitsSigned, decide_eq_true_eq] at h
    have e : v.extractLsb' 7 7 ++ v.extractLsb' 0 7 = v.extractLsb' 0 14 := extract_append v 0 7 7
    simp [encodeImm, decodeImm, e, h]
  · rename_i hs
    simp only at hs h
    subst hs
    simp only [fitsSigned, decide_eq_true_eq] at h
    have e1 : v.extractLsb' 14 7 ++ v.extractLsb' 7 7 = v.extractLsb' 7 14 := extract_append v 7 7 7
    have e2 : v.extractLsb' 7 14 ++ v.extractLsb' 0 7 = v.extractLsb' 0 21 := extract_append v 0 14 7
    simp [encodeImm, decodeImm, e1, e2, h]
  · rename_i hs
    simp only at hs h
    subst hs
    simp only [fitsSigned, decide_eq_true_eq] at h
    have e1 : v.extractLsb' 21 7 ++ v.extractLsb' 14 7 = v.extractLsb' 14 14 := extract_append v 14 7 7
    have e2 : v.extractLsb' 14 14 ++ v.extractLsb' 7 7 = v.extractLsb' 7 21 := extract_append v 7 14 7
    have e3 : v.extractLsb' 7 21 ++ v.extractLsb' 0 7 = v.extractLsb' 0 28 := extract_append v 0 21 7
    simp [encodeImm, decodeImm, e1, e2, e3, h]
  · rename_i hs
    simp only at hs h
    subst hs
    cases m
    · have e1 : v.extractLsb' 25 7 ++ v.extractLsb' 18 7 = v.extractLsb' 18 14 := extract_append v 18 7 7
      have e2 : v.extractLsb' 18 14 ++ v.extractLsb' 11 7 = v.extractLsb' 11 21 := extract_append v 11 14 7
      have e3 : v.extractLsb' 11 21 ++ v.extractLsb' 4 7 = v.extractLsb' 4 28 := extract_append v 4 21 7
      have e4 : v.extractLsb' 4 28 ++ v.extractLsb' 0 4 = v.extractLsb' 0 32 := extract_append v 0 28 4
      have e5 : v.extractLsb' 0 32 = v := by simp
      simp [encodeImm, decodeImm, imm5Value, e1, e2, e3, e4, e5]
    · have e1 : v.extractLsb' 28 4 ++ v.extractLsb' 21 7 = v.extractLsb' 21 11 := extract_append v 21 4 7
      have e2 : v.extractLsb' 21 11 ++ v.extractLsb' 14 7 = v.extractLsb' 14 18 := extract_append v 14 11 7
      have e3 : v.extractLsb' 14 18 ++ v.extractLsb' 7 7 = v.extractLsb' 7 25 := extract_append v 7 18 7
      have e4 : v.extractLsb' 7 25 ++ v.extractLsb' 0 7 = v.extractLsb' 0 32 := extract_append v 0 25 7
      have e5 : v.extractLsb' 0 32 = v := by simp
      simp [encodeImm, decodeImm, imm5Value, e1, e2, e3, e4, e5]
  · exact absurd h (by simp)

theorem withImm_encodeImm (m : Imm5Mode) (mk : Imm → Instr) (imm : Imm) (rest : List Byte)
    (h : imm.wf = true) : withImm m mk (encodeImm m imm ++ rest) = .ok (mk imm, rest) := by
  unfold withImm
  rw [decodeImm_encodeImm m imm rest h]

/-- The bytes of a well-formed immediate are as many as its size says, 1 to 5 (R50). -/
theorem encodeImm_length (m : Imm5Mode) (imm : Imm) (h : imm.wf = true) :
    (encodeImm m imm).length = imm.size ∧ 1 ≤ imm.size ∧ imm.size ≤ 5 := by
  obtain ⟨size, v⟩ := imm
  unfold Imm.wf at h
  split at h
  case h_6 => exact absurd h (by simp)
  all_goals
    rename_i hs
    simp only at hs
    subst hs
    cases m <;> simp [encodeImm]

/-! ## What a read of an immediate can answer -/

theorem extract_signExtend {k : Nat} (x : BitVec k) (lo n : Nat) (hk : k ≤ 32) (h : lo + n ≤ k) :
    (x.signExtend 32).extractLsb' lo n = x.extractLsb' lo n := by
  apply BitVec.eq_of_getLsbD_eq
  intro i hi
  have h1 : lo + i < 32 := by omega
  have h2 : lo + i < k := by omega
  rw [BitVec.getLsbD_extractLsb', BitVec.getLsbD_extractLsb', BitVec.getLsbD_signExtend]
  simp [hi, h1, h2]

theorem fitsSigned_signExtend {k : Nat} (x : BitVec k) (hk : k ≤ 32) :
    fitsSigned k (x.signExtend 32) = true := by
  unfold fitsSigned
  rw [decide_eq_true_eq, extract_signExtend x 0 k hk (by omega)]
  simp

theorem extract_append_low {j k : Nat} (x : BitVec j) (y : BitVec k) :
    (x ++ y).extractLsb' 0 k = y := by
  apply BitVec.eq_of_getLsbD_eq
  intro i hi
  rw [BitVec.getLsbD_extractLsb', BitVec.getLsbD_append]
  simp [hi]

theorem extract_append_high {j k : Nat} (x : BitVec j) (y : BitVec k) {lo n : Nat} (hl : k ≤ lo) :
    (x ++ y).extractLsb' lo n = x.extractLsb' (lo - k) n := by
  apply BitVec.eq_of_getLsbD_eq
  intro i hi
  have h : ¬ lo + i < k := by omega
  have h' : lo + i - k = lo - k + i := by omega
  rw [BitVec.getLsbD_extractLsb', BitVec.getLsbD_extractLsb', BitVec.getLsbD_append]
  simp [hi, h, h']

/-- The groups of a concatenation, read back one by one. -/
theorem groups2 (x y : BitVec 7) :
    (x ++ y : BitVec 14).extractLsb' 0 7 = y ∧ (x ++ y : BitVec 14).extractLsb' 7 7 = x :=
  ⟨extract_append_low x y, (extract_append_high x y (by decide)).trans (by simp)⟩

theorem groups3 (x y z : BitVec 7) :
    (x ++ y ++ z : BitVec 21).extractLsb' 0 7 = z ∧ (x ++ y ++ z : BitVec 21).extractLsb' 7 7 = y ∧
      (x ++ y ++ z : BitVec 21).extractLsb' 14 7 = x :=
  ⟨extract_append_low (x ++ y) z, (extract_append_high (x ++ y) z (by decide)).trans (groups2 x y).1,
    (extract_append_high (x ++ y) z (by decide)).trans (groups2 x y).2⟩

theorem groups4 (x y z u : BitVec 7) :
    (x ++ y ++ z ++ u : BitVec 28).extractLsb' 0 7 = u ∧
      (x ++ y ++ z ++ u : BitVec 28).extractLsb' 7 7 = z ∧
      (x ++ y ++ z ++ u : BitVec 28).extractLsb' 14 7 = y ∧
      (x ++ y ++ z ++ u : BitVec 28).extractLsb' 21 7 = x :=
  ⟨extract_append_low (x ++ y ++ z) u,
    (extract_append_high (x ++ y ++ z) u (by decide)).trans (groups3 x y z).1,
    (extract_append_high (x ++ y ++ z) u (by decide)).trans (groups3 x y z).2.1,
    (extract_append_high (x ++ y ++ z) u (by decide)).trans (groups3 x y z).2.2⟩

theorem groups5 (x y z u : BitVec 7) (w : BitVec 4) :
    (x ++ y ++ z ++ u ++ w : BitVec 32).extractLsb' 0 4 = w ∧
      (x ++ y ++ z ++ u ++ w : BitVec 32).extractLsb' 4 7 = u ∧
      (x ++ y ++ z ++ u ++ w : BitVec 32).extractLsb' 11 7 = z ∧
      (x ++ y ++ z ++ u ++ w : BitVec 32).extractLsb' 18 7 = y ∧
      (x ++ y ++ z ++ u ++ w : BitVec 32).extractLsb' 25 7 = x :=
  ⟨extract_append_low (x ++ y ++ z ++ u) w,
    (extract_append_high (x ++ y ++ z ++ u) w (by decide)).trans (groups4 x y z u).1,
    (extract_append_high (x ++ y ++ z ++ u) w (by decide)).trans (groups4 x y z u).2.1,
    (extract_append_high (x ++ y ++ z ++ u) w (by decide)).trans (groups4 x y z u).2.2.1,
    (extract_append_high (x ++ y ++ z ++ u) w (by decide)).trans (groups4 x y z u).2.2.2⟩

theorem lastByte_low4 {b : Byte} (h : continues b = false) (h' : b.extractLsb' 4 3 = 0) :
    lastByte (0#3 ++ lsn b) = b := by
  revert b
  decide

/-- What a read of an immediate can answer: a well-formed immediate, the bytes after it, and, except for
bits 6:4 of the first byte of five under shift7, the bytes the encoder writes for it. -/
theorem decodeImm_cases {m : Imm5Mode} {bs rest : List Byte} {imm : Imm}
    (h : decodeImm m bs = .ok (imm, rest)) :
    imm.wf = true ∧ ∃ used, bs = used ++ rest ∧ used.length = imm.size ∧
      (m = .last4 ∨ imm.size < 5 → used = encodeImm m imm) := by
  have last : ∀ {b : Byte}, ¬ continues b = true → lastByte (low7 b) = b :=
    fun hb => lastByte_low7 (by simpa using hb)
  obtain _ | ⟨b1, t⟩ := bs
  · simp [decodeImm] at h
  by_cases c1 : continues b1
  case neg =>
    simp only [decodeImm, c1] at h
    obtain ⟨rfl, rfl⟩ := by simpa using h
    refine ⟨fitsSigned_signExtend _ (by decide), [b1], rfl, rfl, fun _ => ?_⟩
    simp [encodeImm, extract_signExtend, last c1]
  obtain _ | ⟨b2, t⟩ := t
  · simp [decodeImm, c1] at h
  by_cases c2 : continues b2
  case neg =>
    simp only [decodeImm, c1, c2] at h
    obtain ⟨rfl, rfl⟩ := by simpa using h
    refine ⟨fitsSigned_signExtend _ (by decide), [b1, b2], rfl, rfl, fun _ => ?_⟩
    obtain ⟨e0, e1⟩ := groups2 (low7 b1) (low7 b2)
    simp [encodeImm, extract_signExtend, e0, e1, moreByte_low7 c1, last c2]
  obtain _ | ⟨b3, t⟩ := t
  · simp [decodeImm, c1, c2] at h
  by_cases c3 : continues b3
  case neg =>
    simp only [decodeImm, c1, c2, c3] at h
    obtain ⟨rfl, rfl⟩ := by simpa using h
    refine ⟨fitsSigned_signExtend _ (by decide), [b1, b2, b3], rfl, rfl, fun _ => ?_⟩
    obtain ⟨e0, e1, e2⟩ := groups3 (low7 b1) (low7 b2) (low7 b3)
    simp [encodeImm, extract_signExtend, e0, e1, e2, moreByte_low7 c1, moreByte_low7 c2, last c3]
  obtain _ | ⟨b4, t⟩ := t
  · simp [decodeImm, c1, c2, c3] at h
  by_cases c4 : continues b4
  case neg =>
    simp only [decodeImm, c1, c2, c3, c4] at h
    obtain ⟨rfl, rfl⟩ := by simpa using h
    refine ⟨fitsSigned_signExtend _ (by decide), [b1, b2, b3, b4], rfl, rfl, fun _ => ?_⟩
    obtain ⟨e0, e1, e2, e3⟩ := groups4 (low7 b1) (low7 b2) (low7 b3) (low7 b4)
    simp [encodeImm, extract_signExtend, e0, e1, e2, e3, moreByte_low7 c1, moreByte_low7 c2,
      moreByte_low7 c3, last c4]
  obtain _ | ⟨b5, t⟩ := t
  · simp [decodeImm, c1, c2, c3, c4] at h
  simp only [decodeImm, c1, c2, c3, c4, if_true] at h
  cases hv : imm5Value m b1 b2 b3 b4 b5 with
  | error e => simp [hv] at h
  | ok v =>
    rw [hv] at h
    obtain ⟨rfl, rfl⟩ := by simpa using h
    refine ⟨rfl, [b1, b2, b3, b4, b5], rfl, rfl, ?_⟩
    rintro (rfl | h5)
    · unfold imm5Value at hv
      by_cases c5 : continues b5
      · simp [c5] at hv
      by_cases h0 : b5.extractLsb' 4 3 = 0
      · simp only [c5, h0] at hv
        obtain rfl := by simpa using hv
        obtain ⟨e0, e1, e2, e3, e4⟩ := groups5 (low7 b1) (low7 b2) (low7 b3) (low7 b4) (lsn b5)
        simp [encodeImm, e0, e1, e2, e3, e4, moreByte_low7 c1, moreByte_low7 c2,
          moreByte_low7 c3, moreByte_low7 c4, lastByte_low4 (by simpa using c5) h0]
      · simp only [c5, h0] at hv
        simp at hv
    · simp at h5

theorem withImm_cases {m : Imm5Mode} {mk : Imm → Instr} {bs rest : List Byte} {i : Instr}
    (h : withImm m mk bs = .ok (i, rest)) :
    ∃ imm, i = mk imm ∧ imm.wf = true ∧ ∃ used, bs = used ++ rest ∧ used.length = imm.size ∧
      (m = .last4 ∨ imm.size < 5 → used = encodeImm m imm) := by
  unfold withImm at h
  split at h
  · rename_i imm r hd
    injection h with h
    injection h with h1 h2
    subst h1 h2
    exact ⟨imm, rfl, decodeImm_cases hd⟩
  · exact absurd h (by simp)

end Sys2Proof
end

