-- ==== Sys2Proof/Laws/Ops.lean ====
section
/-! SUPPORT. One law per shared operation: everything it can do. The provers cite these instead of unfolding
the operation. -/

namespace Sys2Proof.Machine

/-! ## Sequencing -/

@[simp] theorem outcome_ok (t : State) : outcome (.ok t) = .next t := rfl
@[simp] theorem outcome_error (f : Fault) : outcome (.error f) = .fault f := rfl
@[simp] theorem retire_ok (n : Nat) (t : State) : retire n (.ok t) = .next (t.advance n) := rfl
@[simp] theorem retire_error (n : Nat) (f : Fault) : retire n (.error f) = .fault f := rfl

theorem outcome_eq_next {r : Res State} {t : State} : outcome r = .next t ↔ r = .ok t := by
  cases r <;> simp [outcome]

theorem retire_eq_next {n : Nat} {r : Res State} {t : State} :
    retire n r = .next t ↔ ∃ u, r = .ok u ∧ t = u.advance n := by
  cases r with
  | error f => simp
  | ok u => simp [eq_comm]

/-- A sequence answers a state exactly when its first part does and the second part does from there. -/
theorem bind_eq_ok {α β : Type} {r : Res α} {f : α → Res β} {b : β} :
    (r >>= f) = .ok b ↔ ∃ a, r = .ok a ∧ f a = .ok b := by
  cases r with
  | error e => simp [bind, Except.bind]
  | ok a => simp [bind, Except.bind]

theorem map_eq_ok {α β : Type} {r : Res α} {f : α → β} {b : β} :
    r.map f = .ok b ↔ ∃ a, r = .ok a ∧ f a = b := by
  cases r with
  | error e => simp [Except.map]
  | ok a => simp [Except.map]

@[simp] theorem ok_bind {α β : Type} (a : α) (f : α → Res β) : ((.ok a : Res α) >>= f) = f a := rfl
@[simp] theorem error_bind {α β : Type} (e : Fault) (f : α → Res β) :
    ((.error e : Res α) >>= f) = .error e := rfl

/-! ## The CC slot -/

theorem ccUnpackSuggested_ccPackSuggested (cc : CC) : ccUnpackSuggested (ccPackSuggested cc) = cc := by
  obtain ⟨n, v, z, c, c8, z8, c16, z16⟩ := cc
  revert n v z c c8 z8 c16 z16
  decide

theorem ccUnpackFree_ccPackFree {k : Nat} (h : freePairRoundTrips k = true) (cc : CC) :
    Config.ccUnpackFree k (Config.ccPackFree k cc) = cc :=
  of_decide_eq_true h cc.n cc.v cc.z cc.c cc.c8 cc.z8 cc.c16 cc.z16

/-- The one property R186 requires of CC_PACK and CC_UNPACK, for every layout the state can name. -/
@[simp] theorem ccUnpack_ccPack (codec : CcCodec) (cc : CC) : ccUnpack codec (ccPack codec cc) = cc := by
  cases codec with
  | suggested => exact ccUnpackSuggested_ccPackSuggested cc
  | other k =>
    by_cases h : freePairRoundTrips k = true
    · simp [ccUnpack, ccPack, h, ccUnpackFree_ccPackFree h]
    · simp [ccUnpack, ccPack, h, ccUnpackSuggested_ccPackSuggested]

/-- No pair that R186 admits is left out: a free pair with the required property is the pair in use. -/
theorem codec_of_roundTrip {k : Nat}
    (h : ∀ cc, Config.ccUnpackFree k (Config.ccPackFree k cc) = cc) :
    ccPack (.other k) = Config.ccPackFree k ∧ ccUnpack (.other k) = Config.ccUnpackFree k := by
  have hk : freePairRoundTrips k = true := decide_eq_true fun _ _ _ _ _ _ _ _ => h _
  constructor <;> funext x <;> simp only [ccPack, ccUnpack, hk, if_true]

/-! ## Bytes and numbers -/

theorem numberAt_base (s : State) (w : Width) (a : Word) :
    s.numberAt w (alignedBase w a) = s.numberAt w a := by
  unfold State.numberAt
  rw [alignedBase_idem]

theorem numberAt_lt (s : State) (w : Width) (a : Word) : s.numberAt w a < 2 ^ (8 * bytesOf w) := by
  cases w <;> simp only [State.numberAt, bytesOf]
  · exact (s.dataByte _).isLt
  · have h0 := (s.dataByte (alignedBase .word a)).isLt
    have h1 := (s.dataByte (alignedBase .word a + 1)).isLt
    omega
  · have h0 := (s.dataByte (alignedBase .dword a)).isLt
    have h1 := (s.dataByte (alignedBase .dword a + 1)).isLt
    have h2 := (s.dataByte (alignedBase .dword a + 2)).isLt
    have h3 := (s.dataByte (alignedBase .dword a + 3)).isLt
    omega

/-- A read of memory answers the number its bytes hold. -/
theorem loadBytes_toNat (s : State) (w : Width) (a : Word) :
    (s.loadBytes w (align w a)).toNat = s.numberAt w a := by
  rw [align_eq]
  cases w
  · have h0 := (s.dataByte (alignedBase .byte a)).isLt
    simp only [State.loadBytes, State.numberAt, BitVec.toNat_setWidth]
    omega
  · have h0 := (s.dataByte (alignedBase .word a)).isLt
    have h1 := (s.dataByte (alignedBase .word a + 1)).isLt
    simp only [State.loadBytes, State.numberAt, BitVec.toNat_setWidth, toNat_append]
    omega
  · have h0 := (s.dataByte (alignedBase .dword a)).isLt
    simp only [State.loadBytes, State.numberAt, toNat_append]
    omega

theorem loadBytes_eq_slot (s : State) (a : Word) : s.loadBytes .dword (align .dword a) = s.slot a := by
  apply BitVec.eq_of_toNat_eq
  rw [loadBytes_toNat, State.slot, BitVec.toNat_ofNat]
  exact (Nat.mod_eq_of_lt (numberAt_lt s .dword a)).symm

theorem lowBits_toNat (w : Width) (v : Word) : (lowBits w v).toNat = v.toNat % 2 ^ (8 * bytesOf w) := by
  have hv := v.isLt
  cases w <;> simp only [lowBits, bytesOf, BitVec.toNat_setWidth, toNat_extract] <;> omega

theorem lowBits_of_lt {w : Width} {v : Word} (h : v.toNat < 2 ^ (8 * bytesOf w)) : lowBits w v = v :=
  BitVec.eq_of_toNat_eq (by rw [lowBits_toNat, Nat.mod_eq_of_lt h])

theorem toInt_signExtend_low (k : Nat) (hk : k ≤ 32) (v : Word) :
    ((v.extractLsb' 0 k).signExtend 32).toInt = (v.toNat : Int).bmod (2 ^ k) := by
  rw [BitVec.toInt_signExtend_of_le hk, BitVec.toInt_eq_toNat_bmod, toNat_extract]
  have h : ((v.toNat : Int) % (2 ^ k : Nat)).bmod (2 ^ k) = _ := Int.emod_bmod v.toNat (2 ^ k)
  simpa using h

/-- What a load makes of the bytes it read. -/
theorem widen_spec (e : LoadExt) (w : Width) (v : Word) (h : v.toNat < 2 ^ (8 * bytesOf w)) :
    Widened e w v.toNat (widen e w v) := by
  cases e
  · simp only [Widened, widen, lowBits_of_lt h]
  · cases w
    · exact toInt_signExtend_low 8 (by decide) v
    · exact toInt_signExtend_low 16 (by decide) v
    · exact BitVec.toInt_eq_toNat_bmod v

/-! ## Stores -/

theorem storeBytes_eq (s : State) (w : Width) (a v : Word) :
    s.storeBytes w a v = { s with dmem := (s.storeBytes w a v).dmem } := by
  cases w <;> rfl

@[simp] theorem reg_storeBytes (s : State) (w : Width) (a v : Word) (r : Reg) :
    (s.storeBytes w a v).reg r = s.reg r := by
  cases w <;> rfl

/-- The bytes of a store. -/
theorem dataByte_storeBytes (s : State) (w : Width) (a v b : Word) :
    ((s.storeBytes w a v).dataByte b).toNat =
      if (b - a).toNat < bytesOf w then v.toNat / 2 ^ (8 * (b - a).toNat) % 2 ^ 8
      else (s.dataByte b).toNat := by
  have key : ∀ k : Nat, k < 4 → ((b = a + BitVec.ofNat 32 k) ↔ (b - a).toNat = k) := by
    intro k hk
    constructor
    · intro h
      bv_omega
    · intro h
      bv_omega
  have k0 : b = a ↔ (b - a).toNat = 0 := by simpa using key 0 (by omega)
  have k1 : b = a + 1 ↔ (b - a).toNat = 1 := key 1 (by omega)
  have k2 : b = a + 2 ↔ (b - a).toNat = 2 := key 2 (by omega)
  have k3 : b = a + 3 ↔ (b - a).toNat = 3 := key 3 (by omega)
  have hx : ∀ lo : Nat, (v.extractLsb' lo 8).toNat = v.toNat / 2 ^ lo % 2 ^ 8 :=
    fun lo => toNat_extract 32 v lo 8
  cases w <;> simp only [State.storeBytes, State.dataByte_setDataByte, k0, k1, k2, k3] <;>
    generalize (b - a).toNat = d
  · by_cases h : d = 0
    · rw [if_pos h, if_pos (by rw [h]; decide), h, hx]
    · rw [if_neg h, if_neg (by simp only [bytesOf]; omega)]
  · by_cases h1 : d = 1
    · rw [if_pos h1, if_pos (by rw [h1]; decide), h1, hx]
    · by_cases h0 : d = 0
      · rw [if_neg h1, if_pos h0, if_pos (by rw [h0]; decide), h0, hx]
      · rw [if_neg h1, if_neg h0, if_neg (by simp only [bytesOf]; omega)]
  · by_cases h3 : d = 3
    · rw [if_pos h3, if_pos (by rw [h3]; decide), h3, hx]
    · by_cases h2 : d = 2
      · rw [if_neg h3, if_pos h2, if_pos (by rw [h2]; decide), h2, hx]
      · by_cases h1 : d = 1
        · rw [if_neg h3, if_neg h2, if_pos h1, if_pos (by rw [h1]; decide), h1, hx]
        · by_cases h0 : d = 0
          · rw [if_neg h3, if_neg h2, if_neg h1, if_pos h0, if_pos (by rw [h0]; decide), h0, hx]
          · rw [if_neg h3, if_neg h2, if_neg h1, if_neg h0, if_neg (by simp only [bytesOf]; omega)]

theorem storeBytes_outside (s : State) (w : Width) (a v : Word) :
    SameDataOutside s (s.storeBytes w a v) a (bytesOf w) := by
  intro b hb
  apply BitVec.eq_of_toNat_eq
  unfold InBlock at hb
  rw [dataByte_storeBytes, if_neg hb]

theorem storeBytes_byte (s : State) (w : Width) (a v : Word) {k : Nat} (hk : k < bytesOf w) :
    ((s.storeBytes w a v).dataByte (a + BitVec.ofNat 32 k)).toNat = v.toNat / 2 ^ (8 * k) % 2 ^ 8 := by
  have h4 := bytesOf_le w
  have : (a + BitVec.ofNat 32 k - a).toNat = k := by bv_omega
  rw [dataByte_storeBytes, this, if_pos hk]

/-- Two states that read the same on an access read the same number there. -/
theorem numberAt_congr {s t : State} {w : Width} {a : Word}
    (h : ∀ b, InBlock (alignedBase w a) (bytesOf w) b → t.dataByte b = s.dataByte b) :
    t.numberAt w a = s.numberAt w a := by
  have hk : ∀ k : Nat, k < bytesOf w →
      t.dataByte (alignedBase w a + BitVec.ofNat 32 k) = s.dataByte (alignedBase w a + BitVec.ofNat 32 k) := by
    intro k hk
    apply h
    have h4 := bytesOf_le w
    have : (alignedBase w a + BitVec.ofNat 32 k - alignedBase w a).toNat = k := by bv_omega
    rw [InBlock, this]
    exact hk
  have h0 := hk 0 (bytesOf_pos w)
  simp only [BitVec.add_zero] at h0
  unfold State.numberAt
  cases w
  · simp only [h0]
  · have h1 : t.dataByte (alignedBase .word a + 1) = _ := hk 1 (by decide)
    simp only [h0, h1]
    rfl
  · have h1 : t.dataByte (alignedBase .dword a + 1) = _ := hk 1 (by decide)
    have h2 : t.dataByte (alignedBase .dword a + 2) = _ := hk 2 (by decide)
    have h3 : t.dataByte (alignedBase .dword a + 3) = _ := hk 3 (by decide)
    simp only [h0, h1, h2, h3]
    rfl

theorem numberAt_storeBytes_same (s : State) (w : Width) (a v : Word) :
    (s.storeBytes w (alignedBase w a) v).numberAt w a = v.toNat % 2 ^ (8 * bytesOf w) := by
  have hv := v.isLt
  have h0 : ((s.storeBytes w (alignedBase w a) v).dataByte (alignedBase w a)).toNat = v.toNat % 2 ^ 8 := by
    have h : ((s.storeBytes w (alignedBase w a) v).dataByte (alignedBase w a + BitVec.ofNat 32 0)).toNat = _ :=
      storeBytes_byte s w (alignedBase w a) v (bytesOf_pos w)
    simpa using h
  unfold State.numberAt
  cases w
  · simpa [bytesOf] using h0
  · have h1 : ((s.storeBytes .word (alignedBase .word a) v).dataByte (alignedBase .word a + 1)).toNat = _ :=
      storeBytes_byte s .word (alignedBase .word a) v (k := 1) (by decide)
    simp only [h0, h1, bytesOf]
    omega
  · have h1 : ((s.storeBytes .dword (alignedBase .dword a) v).dataByte (alignedBase .dword a + 1)).toNat = _ :=
      storeBytes_byte s .dword (alignedBase .dword a) v (k := 1) (by decide)
    have h2 : ((s.storeBytes .dword (alignedBase .dword a) v).dataByte (alignedBase .dword a + 2)).toNat = _ :=
      storeBytes_byte s .dword (alignedBase .dword a) v (k := 2) (by decide)
    have h3 : ((s.storeBytes .dword (alignedBase .dword a) v).dataByte (alignedBase .dword a + 3)).toNat = _ :=
      storeBytes_byte s .dword (alignedBase .dword a) v (k := 3) (by decide)
    simp only [h0, h1, h2, h3, bytesOf]
    omega

theorem slot_congr {s t : State} {a : Word}
    (h : ∀ b, InBlock (alignedBase .dword a) 4 b → t.dataByte b = s.dataByte b) : t.slot a = s.slot a := by
  unfold State.slot
  rw [numberAt_congr h]

theorem slot_storeBytes_same (s : State) (a v : Word) :
    (s.storeBytes .dword (alignedBase .dword a) v).slot a = v := by
  unfold State.slot
  rw [numberAt_storeBytes_same, show 2 ^ (8 * bytesOf .dword) = 2 ^ 32 from rfl, Nat.mod_eq_of_lt v.isLt]
  simp

/-! ## MemRead and MemWrite -/

theorem classAt_eq (s : State) (w : Width) (a : Word) : s.classAt w a = s.accessClass w a := by
  unfold State.classAt State.accessClass
  rw [align_eq]

theorem memRead_ram {s : State} {w : Width} {a : Word} (h : s.accessClass w a = .ram) :
    s.memRead w a = .ok (s.loadBytes w (align w a), s) := by
  unfold State.memRead
  rw [classAt_eq, h]

theorem memRead_device {s : State} {w : Width} {a : Word} (h : s.accessClass w a = .device) :
    s.memRead w a =
      .ok (lowBits w (Config.deviceInput s.deviceReads), { s with deviceReads := s.deviceReads + 1 }) := by
  unfold State.memRead
  rw [classAt_eq, h]

theorem memRead_absent {s : State} {w : Width} {a : Word} (h : s.accessClass w a = .absent) :
    s.memRead w a = .error .accessOutsideMemory := by
  unfold State.memRead
  rw [classAt_eq, h]

/-- What a read can do. -/
theorem memRead_cases {s t : State} {w : Width} {a v : Word} (h : s.memRead w a = .ok (v, t)) :
    (s.accessClass w a = .ram ∧ v = s.loadBytes w (align w a) ∧ t = s) ∨
    (s.accessClass w a = .device ∧ v = lowBits w (Config.deviceInput s.deviceReads) ∧
      t = { s with deviceReads := s.deviceReads + 1 }) := by
  cases hc : s.accessClass w a with
  | ram =>
    rw [memRead_ram hc] at h
    injection h with h
    injection h with h1 h2
    exact .inl ⟨rfl, h1.symm, h2.symm⟩
  | device =>
    rw [memRead_device hc] at h
    injection h with h
    injection h with h1 h2
    exact .inr ⟨rfl, h1.symm, h2.symm⟩
  | absent =>
    rw [memRead_absent hc] at h
    exact absurd h (by simp)

theorem memWrite_ram {s : State} {w : Width} {a v : Word} (h : s.accessClass w a = .ram) :
    s.memWrite w a v = .ok (s.storeBytes w (alignedBase w a) v) := by
  unfold State.memWrite
  rw [classAt_eq, h, align_eq]

theorem memWrite_device {s : State} {w : Width} {a v : Word} (h : s.accessClass w a = .device) :
    s.memWrite w a v =
      .ok { s with outputs := s.outputs ++ [⟨alignedBase w a, w, lowBits w v⟩] } := by
  unfold State.memWrite
  rw [classAt_eq, h, align_eq]

theorem memWrite_absent {s : State} {w : Width} {a v : Word} (h : s.accessClass w a = .absent) :
    s.memWrite w a v = .error .accessOutsideMemory := by
  unfold State.memWrite
  rw [classAt_eq, h]

/-- What a write can do. -/
theorem memWrite_cases {s t : State} {w : Width} {a v : Word} (h : s.memWrite w a v = .ok t) :
    (s.accessClass w a = .ram ∧ t = s.storeBytes w (alignedBase w a) v) ∨
    (s.accessClass w a = .device ∧
      t = { s with outputs := s.outputs ++ [⟨alignedBase w a, w, lowBits w v⟩] }) := by
  cases hc : s.accessClass w a with
  | ram =>
    rw [memWrite_ram hc] at h
    injection h with h
    exact .inl ⟨rfl, h.symm⟩
  | device =>
    rw [memWrite_device hc] at h
    injection h with h
    exact .inr ⟨rfl, h.symm⟩
  | absent =>
    rw [memWrite_absent hc] at h
    exact absurd h (by simp)

/-! ## Frames: what the operations that may stop keep -/

/-- A read changes the device counter alone. -/
theorem memRead_frame {s t : State} {w : Width} {a v : Word} (h : s.memRead w a = .ok (v, t)) :
    t = { s with deviceReads := t.deviceReads } := by
  obtain ⟨-, -, rfl⟩ | ⟨-, -, rfl⟩ := memRead_cases h <;> rfl

/-- A write changes data memory and the output events alone. -/
theorem memWrite_frame {s t : State} {w : Width} {a v : Word} (h : s.memWrite w a v = .ok t) :
    t = { s with dmem := t.dmem, outputs := t.outputs } := by
  obtain ⟨-, rfl⟩ | ⟨-, rfl⟩ := memWrite_cases h
  · cases w <;> rfl
  · rfl

/-- `t` comes from `s` by pushes: only R14, data memory and the output events differ. -/
def PushFrame (s t : State) : Prop :=
  t = { (s.setReg .sp (t.reg .sp)) with dmem := t.dmem, outputs := t.outputs }

theorem setReg_setReg (s : State) (i : Reg) (v w : Word) : (s.setReg i v).setReg i w = s.setReg i w := by
  simp [State.setReg]

theorem setReg_self (s : State) (i : Reg) : s.setReg i (s.reg i) = s := by
  have : (s.setReg i (s.reg i)).regs = s.regs :=
    State.regs_ext (fun r => by rw [State.reg_setReg]; split <;> simp_all)
  calc s.setReg i (s.reg i) = { s with regs := (s.setReg i (s.reg i)).regs } := rfl
    _ = s := by rw [this]

theorem PushFrame.refl (s : State) : PushFrame s s := by
  unfold PushFrame
  rw [setReg_self]

theorem PushFrame.trans {s t u : State} (h : PushFrame s t) (h' : PushFrame t u) : PushFrame s u := by
  unfold PushFrame at *
  rw [h', h]
  simp [State.setReg, State.reg]

theorem PushFrame.reg {s t : State} (h : PushFrame s t) {r : Reg} (hr : r ≠ .sp) : t.reg r = s.reg r := by
  rw [h]
  exact State.reg_setReg_other s _ hr

theorem pushWord_frame {s t : State} {v : Word} (h : s.pushWord v = .ok t) :
    PushFrame s t ∧ t.reg .sp = s.reg .sp + (-4) := by
  have hf := memWrite_frame h
  have hsp : t.reg .sp = s.reg .sp + (-4) := by
    rw [hf]
    exact State.reg_moveSp_same s (-4)
  refine ⟨?_, hsp⟩
  unfold PushFrame
  rw [hsp]
  exact hf

theorem pushUpTo_frame {s t : State} {n : Nat} (h : s.pushUpTo n = .ok t) :
    PushFrame s t ∧ t.reg .sp = pushedAt (s.reg .sp) n := by
  induction n generalizing t with
  | zero =>
    rw [pushedAt_zero]
    exact pushWord_frame h
  | succ n ih =>
    obtain ⟨u, hu, ht⟩ := bind_eq_ok.mp h
    obtain ⟨h1, h2⟩ := ih hu
    obtain ⟨h3, h4⟩ := pushWord_frame ht
    exact ⟨h1.trans h3, by rw [h4, h2, pushedAt_succ]⟩

/-- A pop of a word: what it answers where the slot has memory. -/
theorem popWord_ram {s : State} (h : s.accessClass .dword (s.reg .sp) = .ram) :
    s.popWord = .ok (s.slot (s.reg .sp), s.moveSp 4) := by
  unfold State.popWord
  rw [memRead_ram h, loadBytes_eq_slot]
  rfl

theorem popReg_ram {s : State} (i : Reg) (h : s.accessClass .dword (s.reg .sp) = .ram) :
    s.popReg i = .ok ((s.setReg i (s.slot (s.reg .sp))).moveSp 4) := by
  unfold State.popReg
  rw [memRead_ram h, loadBytes_eq_slot]
  rfl

/-- `t` comes from `s` by pops: only the registers and the device counter differ. -/
def PopFrame (s t : State) : Prop := t = { s with regs := t.regs, deviceReads := t.deviceReads }

theorem PopFrame.trans {s t u : State} (h : PopFrame s t) (h' : PopFrame t u) : PopFrame s u := by
  unfold PopFrame at *
  rw [h'.trans (by rw [h])]

theorem popWord_frame {s t : State} {v : Word} (h : s.popWord = .ok (v, t)) :
    PopFrame s t ∧ t.reg .sp = s.reg .sp + 4 ∧ ∀ r, r ≠ .sp → t.reg r = s.reg r := by
  obtain ⟨⟨x, u⟩, hu, ht⟩ := bind_eq_ok.mp h
  have hf := memRead_frame hu
  injection ht with ht
  injection ht with h1 h2
  subst h2
  have hr : ∀ r, u.reg r = s.reg r := fun r => by rw [hf]; rfl
  refine ⟨?_, ?_, ?_⟩
  · unfold PopFrame
    rw [hf]
    rfl
  · rw [State.reg_moveSp_same, hr]
  · intro r h
    rw [State.reg_moveSp_other _ _ h, hr]

theorem popReg_frame {s t : State} {i : Reg} (h : s.popReg i = .ok t) :
    PopFrame s t ∧ (∀ r, r ≠ i → r ≠ .sp → t.reg r = s.reg r) ∧
      (i ≠ .sp → t.reg .sp = s.reg .sp + 4) := by
  obtain ⟨⟨x, u⟩, hu, ht⟩ := bind_eq_ok.mp h
  have hf := memRead_frame hu
  injection ht with ht
  subst ht
  have hr : ∀ r, u.reg r = s.reg r := fun r => by rw [hf]; rfl
  refine ⟨?_, ?_, ?_⟩
  · unfold PopFrame
    rw [hf]
    rfl
  · intro r h1 h2
    rw [State.reg_moveSp_other _ _ h2, State.reg_setReg_other _ _ h1, hr]
  · intro h
    rw [State.reg_moveSp_same, State.reg_setReg_other _ _ (Ne.symm h), hr]

theorem popDownFrom_frame {s t : State} {n : Nat} (hn : n < 16) (h : s.popDownFrom n = .ok t) :
    PopFrame s t ∧ ∀ r : Reg, n < r.val → r ≠ .sp → t.reg r = s.reg r := by
  induction n generalizing s with
  | zero =>
    obtain ⟨h1, h2, -⟩ := popReg_frame h
    exact ⟨h1, fun r hr hs => h2 r (by rintro rfl; simp at hr) hs⟩
  | succ n ih =>
    obtain ⟨u, hu, ht⟩ := bind_eq_ok.mp h
    obtain ⟨h1, h2, -⟩ := popReg_frame hu
    obtain ⟨h3, h4⟩ := ih (by omega) ht
    refine ⟨h1.trans h3, fun r hr hs => ?_⟩
    rw [h4 r (by omega) hs]
    refine h2 r ?_ hs
    rintro rfl
    simp only [Fin.ofNat] at hr
    omega

/-- A load into a register changes that register and the device counter alone. -/
theorem loadToReg_frame {s t : State} {w : Width} {x : Reg} {ea : Word}
    (h : s.loadToReg w x ea = .ok t) :
    (∀ r, r ≠ x → t.reg r = s.reg r) ∧ t = { s with regs := t.regs, deviceReads := t.deviceReads } := by
  obtain ⟨⟨v, u⟩, hu, ht⟩ := bind_eq_ok.mp h
  have hf := memRead_frame hu
  injection ht with ht
  subst ht
  refine ⟨fun r hr => ?_, ?_⟩
  · rw [State.reg_setReg_other _ _ hr, hf]
    rfl
  · rw [hf]
    rfl

/-- A load into A changes A and the device counter alone. -/
theorem loadToAcc_frame {s t : State} {w : Width} {ea : Word} (h : s.loadToAcc w ea = .ok t) :
    t = { s with a := t.a, deviceReads := t.deviceReads } := by
  obtain ⟨⟨v, u⟩, hu, ht⟩ := bind_eq_ok.mp h
  have hf := memRead_frame hu
  injection ht with ht
  subst ht
  rw [hf]

/-- The return from an interrupt leaves R15, memory, the output events and the environment's schedule as
they were, and enables interrupts. -/
theorem returnFromInterrupt_frame {s t : State} (h : s.returnFromInterrupt = .ok t) :
    t.reg .srp = s.reg .srp ∧ t.ie = true ∧
      t = { s with
            regs := t.regs, deviceReads := t.deviceReads, a := t.a, pc := t.pc, cc := t.cc, ie := t.ie } := by
  obtain ⟨⟨v1, t1⟩, h1, h⟩ := bind_eq_ok.mp h
  obtain ⟨⟨v2, t2⟩, h2, h⟩ := bind_eq_ok.mp h
  obtain ⟨⟨v3, t3⟩, h3, h⟩ := bind_eq_ok.mp h
  obtain ⟨t4, h4, h⟩ := bind_eq_ok.mp h
  injection h with h
  subst h
  obtain ⟨f1, -, g1⟩ := popWord_frame h1
  obtain ⟨f2, -, g2⟩ := popWord_frame h2
  obtain ⟨f3, -, g3⟩ := popWord_frame h3
  obtain ⟨f4, g4⟩ := popDownFrom_frame (by decide) h4
  refine ⟨?_, rfl, ?_⟩
  · refine (g4 15 (by decide) (by decide)).trans ?_
    refine Eq.trans ?_ (((g3 15 (by decide)).trans (g2 15 (by decide))).trans (g1 15 (by decide)))
    rfl
  · unfold PopFrame at *
    rw [f4, f3, f2, f1]

/-! ## The canonical form of data memory -/

theorem setDataByte_wf {s : State} (a : Word) (b : Byte) (h : s.dmem.wf unlistedData) :
    (s.setDataByte a b).dmem.wf unlistedData :=
  Memory.wf_write a.toNat b a.isLt h

theorem storeBytes_wf {s : State} (w : Width) (a v : Word) (h : s.dmem.wf unlistedData) :
    (s.storeBytes w a v).dmem.wf unlistedData := by
  cases w
  · exact setDataByte_wf _ _ h
  · exact setDataByte_wf _ _ (setDataByte_wf _ _ h)
  · exact setDataByte_wf _ _ (setDataByte_wf _ _ (setDataByte_wf _ _ (setDataByte_wf _ _ h)))

/-- A write keeps the canonical form, to memory or to a device. -/
theorem memWrite_wf {s t : State} {w : Width} {a v : Word} (h : s.memWrite w a v = .ok t)
    (hs : s.dmem.wf unlistedData) : t.dmem.wf unlistedData := by
  obtain ⟨-, rfl⟩ | ⟨-, rfl⟩ := memWrite_cases h
  · exact storeBytes_wf w _ v hs
  · exact hs

/-- The output event a store to a device adds is an aligned access of its width. -/
theorem deviceWrite_wf (w : Width) (a v : Word) : DeviceWrite.wf ⟨alignedBase w a, w, lowBits w v⟩ := by
  refine ⟨alignedBase_mod w a, ?_⟩
  show (lowBits w v).toNat < _
  rw [lowBits_toNat]
  exact Nat.mod_lt _ (by positivity)

/-- A program image loaded for a run is in canonical form too. -/
theorem placeBytes_wf {s : State} (addr : Word) (bs : List Byte) (h : s.dmem.wf unlistedData)
    (h' : s.imem.wf unlistedCode) :
    (s.placeBytes addr bs).dmem.wf unlistedData ∧ (s.placeBytes addr bs).imem.wf unlistedCode := by
  induction bs generalizing s addr with
  | nil => exact ⟨h, h'⟩
  | cons b bs ih =>
    unfold State.placeBytes
    split
    · exact ih _ h (Memory.wf_write addr.toNat b addr.isLt h')
    · exact ih _ (setDataByte_wf addr b h) h'

end Sys2Proof.Machine
end

