-- ==== Sys2Proof/Laws/Independence.lean ====
section
/-! SUPPORT. Updates that the operations over registers and data memory do not see: a field they neither
read nor write may be changed before them or after them. -/

namespace Sys2Proof.Machine

/-- The update `f` of a state is not seen by register and data memory accesses, and changes nothing they
read or write. -/
structure Blind (f : State → State) : Prop where
  reg      : ∀ s r, (f s).reg r = s.reg r
  setReg   : ∀ s r v, (f s).setReg r v = f (s.setReg r v)
  memRead  : ∀ s w a, (f s).memRead w a = (s.memRead w a).map (fun p => (p.1, f p.2))
  memWrite : ∀ s w a v, (f s).memWrite w a v = (s.memWrite w a v).map f
  loadExt  : ∀ s, (f s).cfg.loadExt = s.cfg.loadExt

theorem blind_of {f : State → State} (h1 : ∀ s, (f s).regs = s.regs)
    (h2 : ∀ s r, (f s).setReg r = fun v => f (s.setReg r v)) (h3 : ∀ s, (f s).cfg = s.cfg)
    (h4 : ∀ s, (f s).dmem = s.dmem) (h5 : ∀ s, (f s).deviceReads = s.deviceReads)
    (h6 : ∀ s n, { f s with deviceReads := n } = f { s with deviceReads := n })
    (h7 : ∀ s, (f s).outputs = s.outputs)
    (h8 : ∀ s l, { f s with outputs := l } = f { s with outputs := l })
    (h9 : ∀ s m, { f s with dmem := m } = f { s with dmem := m }) : Blind f := by
  have hc : ∀ s w a, (f s).accessClass w a = s.accessClass w a := by
    intro s w a
    unfold State.accessClass
    rw [h3]
  have hd : ∀ s a, (f s).dataByte a = s.dataByte a := by
    intro s a
    unfold State.dataByte
    rw [h4]
  have hl : ∀ s w a, (f s).loadBytes w a = s.loadBytes w a := by
    intro s w a
    cases w <;> simp only [State.loadBytes, hd]
  have hs : ∀ s w a v, (f s).storeBytes w a v = f (s.storeBytes w a v) := by
    have hb : ∀ s a b, (f s).setDataByte a b = f (s.setDataByte a b) := by
      intro s a b
      unfold State.setDataByte
      rw [h9, h4]
    intro s w a v
    cases w <;> simp only [State.storeBytes, hb]
  refine ⟨?_, ?_, ?_, ?_, ?_⟩
  · intro s r
    unfold State.reg
    rw [h1]
  · intro s r v
    rw [h2]
  · intro s w a
    cases h : s.accessClass w a with
    | ram =>
      rw [memRead_ram h, memRead_ram ((hc s w a).trans h), hl]
      rfl
    | device =>
      rw [memRead_device h, memRead_device ((hc s w a).trans h), h6, h5]
      rfl
    | absent =>
      rw [memRead_absent h, memRead_absent ((hc s w a).trans h)]
      rfl
  · intro s w a v
    cases h : s.accessClass w a with
    | ram =>
      rw [memWrite_ram h, memWrite_ram ((hc s w a).trans h), hs]
      rfl
    | device =>
      rw [memWrite_device h, memWrite_device ((hc s w a).trans h), h8, h7]
      rfl
    | absent =>
      rw [memWrite_absent h, memWrite_absent ((hc s w a).trans h)]
      rfl
  · intro s
    rw [h3]

/-! ## The four fields no load, store, push or pop reads -/

theorem blind_cc (d : CC) : Blind (fun s => { s with cc := d }) := by
  apply blind_of <;> intros <;> rfl

theorem blind_ie (b : Bool) : Blind (fun s => { s with ie := b }) := by
  apply blind_of <;> intros <;> rfl

theorem blind_imem (m : Memory) : Blind (fun s => { s with imem := m }) := by
  apply blind_of <;> intros <;> rfl

theorem blind_a (v : Word) : Blind (fun s => { s with a := v }) := by
  apply blind_of <;> intros <;> rfl

theorem blind_pc (v : Word) : Blind (fun s => { s with pc := v }) := by
  apply blind_of <;> intros <;> rfl

theorem blind_irq (l : List Bool) : Blind (fun s => { s with irq := l }) := by
  apply blind_of <;> intros <;> rfl

/-! ## What the operations make of such an update -/

namespace Blind

variable {f : State → State}

theorem moveSp (hf : Blind f) (s : State) (d : Word) : (f s).moveSp d = f (s.moveSp d) := by
  unfold State.moveSp
  rw [hf.reg, hf.setReg]

theorem pushWord (hf : Blind f) (s : State) (v : Word) : (f s).pushWord v = (s.pushWord v).map f := by
  unfold State.pushWord
  rw [hf.moveSp, hf.reg, hf.memWrite]

theorem pushReg (hf : Blind f) (s : State) (i : Reg) : (f s).pushReg i = (s.pushReg i).map f := by
  unfold State.pushReg
  rw [hf.moveSp, hf.reg, hf.pushWord]

theorem pushUpTo (hf : Blind f) (s : State) (n : Nat) : (f s).pushUpTo n = (s.pushUpTo n).map f := by
  induction n with
  | zero => exact hf.pushReg s 0
  | succ n ih =>
    unfold State.pushUpTo
    rw [ih]
    cases s.pushUpTo n with
    | error e => rfl
    | ok t => exact hf.pushReg t _

theorem popWord (hf : Blind f) (s : State) :
    (f s).popWord = s.popWord.map (fun p => (p.1, f p.2)) := by
  unfold State.popWord
  rw [hf.reg, hf.memRead]
  cases s.memRead .dword (s.reg .sp) with
  | error e => rfl
  | ok p => exact congrArg (fun x => Except.ok (p.1, x)) (hf.moveSp p.2 4)

theorem popReg (hf : Blind f) (s : State) (i : Reg) : (f s).popReg i = (s.popReg i).map f := by
  unfold State.popReg
  rw [hf.reg, hf.memRead]
  cases s.memRead .dword (s.reg .sp) with
  | error e => rfl
  | ok p =>
    refine congrArg Except.ok ?_
    show ((f p.2).setReg i p.1).moveSp 4 = f ((p.2.setReg i p.1).moveSp 4)
    rw [hf.setReg, hf.moveSp]

theorem popDownFrom (hf : Blind f) (s : State) (n : Nat) :
    (f s).popDownFrom n = (s.popDownFrom n).map f := by
  induction n generalizing s with
  | zero => exact hf.popReg s 0
  | succ n ih =>
    unfold State.popDownFrom
    rw [hf.popReg]
    cases s.popReg (Fin.ofNat 16 (n + 1)) with
    | error e => rfl
    | ok t => exact ih t

theorem loadToReg (hf : Blind f) (s : State) (w : Width) (x : Reg) (ea : Word) :
    (f s).loadToReg w x ea = (s.loadToReg w x ea).map f := by
  unfold State.loadToReg
  rw [hf.memRead]
  cases s.memRead w ea with
  | error e => rfl
  | ok p =>
    refine congrArg Except.ok ?_
    show (f p.2).setReg x (widen (f p.2).cfg.loadExt w p.1) =
      f (p.2.setReg x (widen p.2.cfg.loadExt w p.1))
    rw [hf.setReg, hf.loadExt]

end Blind

end Sys2Proof.Machine
end

