-- ==== Sys2Proof/Laws/PerInstr.lean ====
section
/-! SUPPORT. Statements about every instruction as data, one lemma per constructor. -/

namespace Sys2Proof.Laws.Length

/-- The encoding of a well-formed instruction has as many bytes as its length says (30_encoding.md R50,
R63). -/
def Statement (i : Instr) : Prop := ∀ m : Imm5Mode, i.wf = true → (encode m i).length = i.length

theorem oneByte (m : Imm5Mode) (imm : Imm) (h : imm.wf = true) :
    (encodeImm m imm).length + 1 = 1 + imm.size := by
  have := (encodeImm_length m imm h).1
  omega

theorem twoByte (m : Imm5Mode) (imm : Imm) (h : imm.wf = true) :
    (encodeImm m imm).length + 1 + 1 = 2 + imm.size := by
  have := (encodeImm_length m imm h).1
  omega

theorem rxFromA (x : Reg) : Statement (.rxFromA x) := fun _ _ => rfl

theorem aFromRx (x : Reg) : Statement (.aFromRx x) := fun _ _ => rfl

theorem ldOffL (x : Reg) (imm : Imm) : Statement (.ldOffL x imm) := fun m h => oneByte m imm h

theorem ldAccL (x : Reg) : Statement (.ldAccL x) := fun _ _ => rfl

theorem ldRegL (x : Reg) : Statement (.ldRegL x) := fun _ _ => rfl

theorem stOffL (x : Reg) (imm : Imm) : Statement (.stOffL x imm) := fun m h => oneByte m imm h

theorem stAccL (x : Reg) : Statement (.stAccL x) := fun _ _ => rfl

theorem stRegL (x : Reg) : Statement (.stRegL x) := fun _ _ => rfl

theorem rxImm (x : Reg) (imm : Imm) : Statement (.rxImm x imm) := fun m h => oneByte m imm h

theorem aImm (n : BitVec 4) : Statement (.aImm n) := fun _ _ => rfl

theorem j (imm : Imm) : Statement (.j imm) := fun m h => oneByte m imm h

theorem jlt (imm : Imm) : Statement (.jlt imm) := fun m h => oneByte m imm h

theorem jge (imm : Imm) : Statement (.jge imm) := fun m h => oneByte m imm h

theorem jlo (imm : Imm) : Statement (.jlo imm) := fun m h => oneByte m imm h

theorem jhs (imm : Imm) : Statement (.jhs imm) := fun m h => oneByte m imm h

theorem jz (imm : Imm) : Statement (.jz imm) := fun m h => oneByte m imm h

theorem jnz (imm : Imm) : Statement (.jnz imm) := fun m h => oneByte m imm h

theorem jloB (imm : Imm) : Statement (.jloB imm) := fun m h => oneByte m imm h

theorem jhsB (imm : Imm) : Statement (.jhsB imm) := fun m h => oneByte m imm h

theorem jzB (imm : Imm) : Statement (.jzB imm) := fun m h => oneByte m imm h

theorem jnzB (imm : Imm) : Statement (.jnzB imm) := fun m h => oneByte m imm h

theorem jloW (imm : Imm) : Statement (.jloW imm) := fun m h => oneByte m imm h

theorem jhsW (imm : Imm) : Statement (.jhsW imm) := fun m h => oneByte m imm h

theorem jzW (imm : Imm) : Statement (.jzW imm) := fun m h => oneByte m imm h

theorem jnzW (imm : Imm) : Statement (.jnzW imm) := fun m h => oneByte m imm h

theorem jsr (imm : Imm) : Statement (.jsr imm) := fun m h => oneByte m imm h

theorem addA (x : Reg) : Statement (.addA x) := fun _ _ => rfl

theorem subA (x : Reg) : Statement (.subA x) := fun _ _ => rfl

theorem andA (x : Reg) : Statement (.andA x) := fun _ _ => rfl

theorem orA (x : Reg) : Statement (.orA x) := fun _ _ => rfl

theorem notA : Statement .notA := fun _ _ => rfl

theorem lslA : Statement .lslA := fun _ _ => rfl

theorem lsrA : Statement .lsrA := fun _ _ => rfl

theorem asrA : Statement .asrA := fun _ _ => rfl

theorem pushR (n : Reg) : Statement (.pushR n) := fun _ _ => rfl

theorem popR (n : Reg) : Statement (.popR n) := fun _ _ => rfl

theorem pushSrp : Statement .pushSrp := fun _ _ => rfl

theorem popA : Statement .popA := fun _ _ => rfl

theorem adcA (x : Reg) : Statement (.adcA x) := fun _ _ => rfl

theorem ldOffB (x : Reg) (imm : Imm) : Statement (.ldOffB x imm) := fun m h => twoByte m imm h

theorem ldAccB (x : Reg) : Statement (.ldAccB x) := fun _ _ => rfl

theorem ldRegB (x : Reg) : Statement (.ldRegB x) := fun _ _ => rfl

theorem stOffB (x : Reg) (imm : Imm) : Statement (.stOffB x imm) := fun m h => twoByte m imm h

theorem stAccB (x : Reg) : Statement (.stAccB x) := fun _ _ => rfl

theorem stRegB (x : Reg) : Statement (.stRegB x) := fun _ _ => rfl

theorem ei : Statement .ei := fun _ _ => rfl

theorem di : Statement .di := fun _ _ => rfl

theorem xorA (x : Reg) : Statement (.xorA x) := fun _ _ => rfl

theorem ldOffW (x : Reg) (imm : Imm) : Statement (.ldOffW x imm) := fun m h => twoByte m imm h

theorem ldAccW (x : Reg) : Statement (.ldAccW x) := fun _ _ => rfl

theorem ldRegW (x : Reg) : Statement (.ldRegW x) := fun _ _ => rfl

theorem stOffW (x : Reg) (imm : Imm) : Statement (.stOffW x imm) := fun m h => twoByte m imm h

theorem stAccW (x : Reg) : Statement (.stAccW x) := fun _ _ => rfl

theorem stRegW (x : Reg) : Statement (.stRegW x) := fun _ _ => rfl

theorem reti : Statement .reti := fun _ _ => rfl

theorem maskbA : Statement .maskbA := fun _ _ => rfl

theorem maskwA : Statement .maskwA := fun _ _ => rfl

theorem sexbA : Statement .sexbA := fun _ _ => rfl

theorem sexwA : Statement .sexwA := fun _ _ => rfl

theorem jA : Statement .jA := fun _ _ => rfl

theorem resSecond15 : Statement .resSecond15 := fun _ _ => rfl

theorem resThird1 (r : BitVec 4) : Statement (.resThird1 r) := fun _ _ => rfl

theorem resFourth (o : BitVec 4) : Statement (.resFourth o) := fun _ _ => rfl

theorem resPush (h n : BitVec 4) : Statement (.resPush h n) := fun _ _ => rfl

theorem resPop (h n : BitVec 4) : Statement (.resPop h n) := fun _ _ => rfl

end Sys2Proof.Laws.Length
end

