-- ==== Sys2Proof/Laws/Stack.lean ====
section
/-! SUPPORT. The stack operations where every slot has memory: what a run of pushes leaves in memory, and
what a run of pops brings back. -/

namespace Sys2Proof.Machine

/-! ## Slots -/

theorem accessClass_congr {s t : State} (h : t.cfg = s.cfg) (w : Width) (a : Word) :
    t.accessClass w a = s.accessClass w a := by
  unfold State.accessClass
  rw [h]

theorem dataByte_congr {s t : State} (h : t.dmem = s.dmem) (a : Word) : t.dataByte a = s.dataByte a := by
  unfold State.dataByte
  rw [h]

theorem slot_of_dmem {s t : State} (h : t.dmem = s.dmem) (a : Word) : t.slot a = s.slot a :=
  slot_congr (fun b _ => dataByte_congr h b)

/-- Two blocks of which the second lies right below the first. -/
theorem inBlock_below {base a : Word} {n k : Nat} (hn : n + k < 2 ^ 32)
    (h : ¬ InBlock (base - BitVec.ofNat 32 k) (n + k) a) : ¬ InBlock base n a ∧
      ¬ InBlock (base - BitVec.ofNat 32 k) k a := by
  unfold InBlock at *
  have h1 : (a - (base - BitVec.ofNat 32 k)).toNat = ((a - base).toNat + k) % 2 ^ 32 := by
    have e : a - (base - BitVec.ofNat 32 k) = (a - base) + BitVec.ofNat 32 k := by
      generalize BitVec.ofNat 32 k = x
      bv_omega
    rw [e, BitVec.toNat_add, BitVec.toNat_ofNat]
    omega
  have := (a - base).isLt
  omega

/-- The bytes of the `j`-th pushed slot are not those of a later one. -/
theorem pushed_disjoint {sp b : Word} {j k : Nat} (hjk : j < k) (hk : k < 2 ^ 29)
    (h : InBlock (alignedBase .dword (pushedAt sp j)) 4 b) :
    ¬ InBlock (alignedBase .dword (pushedAt sp k)) 4 b := by
  rw [alignedBase_pushedAt] at *
  unfold InBlock at *
  generalize alignedBase .dword sp = q at *
  have e1 : b - (q - BitVec.ofNat 32 (4 * (j + 1))) = b - q + BitVec.ofNat 32 (4 * (j + 1)) := by
    generalize BitVec.ofNat 32 (4 * (j + 1)) = x
    bv_omega
  have e2 : b - (q - BitVec.ofNat 32 (4 * (k + 1))) = b - q + BitVec.ofNat 32 (4 * (k + 1)) := by
    generalize BitVec.ofNat 32 (4 * (k + 1)) = x
    bv_omega
  rw [e1, BitVec.toNat_add, BitVec.toNat_ofNat] at h
  rw [e2, BitVec.toNat_add, BitVec.toNat_ofNat]
  have := (b - q).isLt
  omega

/-- The bytes of the `j`-th pushed slot are among those of all slots down to the `k`-th. -/
theorem pushed_inBlock {sp b : Word} {j k : Nat} (hjk : j ≤ k)
    (h : InBlock (alignedBase .dword (pushedAt sp j)) 4 b) :
    InBlock (alignedBase .dword (pushedAt sp k)) (4 * (k + 1)) b := by
  rw [alignedBase_pushedAt] at *
  unfold InBlock at *
  generalize alignedBase .dword sp = q at *
  have e1 : b - (q - BitVec.ofNat 32 (4 * (j + 1))) = b - q + BitVec.ofNat 32 (4 * (j + 1)) := by
    generalize BitVec.ofNat 32 (4 * (j + 1)) = x
    bv_omega
  have e2 : b - (q - BitVec.ofNat 32 (4 * (k + 1))) = b - q + BitVec.ofNat 32 (4 * (k + 1)) := by
    generalize BitVec.ofNat 32 (4 * (k + 1)) = x
    bv_omega
  rw [e1, BitVec.toNat_add, BitVec.toNat_ofNat] at h
  rw [e2, BitVec.toNat_add, BitVec.toNat_ofNat]
  have := (b - q).isLt
  omega

/-- What `k + 1` pushes from `sp` changed, then one push more. -/
theorem sameOutside_succ {s t u : State} {sp : Word} {k : Nat} (hk : k < 2 ^ 28)
    (h : SameDataOutside s t (alignedBase .dword (pushedAt sp k)) (4 * (k + 1)))
    (h' : SameDataOutside t u (alignedBase .dword (pushedAt sp (k + 1))) 4) :
    SameDataOutside s u (alignedBase .dword (pushedAt sp (k + 1))) (4 * (k + 1 + 1)) := by
  intro a ha
  have e : alignedBase .dword (pushedAt sp (k + 1)) =
      alignedBase .dword (pushedAt sp k) - BitVec.ofNat 32 4 := by
    rw [alignedBase_pushedAt, alignedBase_pushedAt, show 4 * (k + 1 + 1) = 4 * (k + 1) + 4 from rfl,
      BitVec.ofNat_add]
    generalize BitVec.ofNat 32 (4 * (k + 1)) = x
    generalize BitVec.ofNat 32 4 = y
    bv_omega
  rw [e] at ha h'
  obtain ⟨h1, h2⟩ := inBlock_below (n := 4 * (k + 1)) (k := 4) (by omega) ha
  rw [h' a h2, h a h1]

/-! ## Pushes -/

/-- A push of a word where its slot has memory. -/
theorem pushWord_ram {s : State} (v : Word) (h : s.accessClass .dword (pushedAt (s.reg .sp) 0) = .ram) :
    ∃ t, s.pushWord v = .ok t ∧ t.slot (pushedAt (s.reg .sp) 0) = v ∧
      SameDataOutside s t (alignedBase .dword (pushedAt (s.reg .sp) 0)) 4 ∧
      t = { (s.setReg .sp (pushedAt (s.reg .sp) 0)) with dmem := t.dmem } := by
  rw [pushedAt_zero] at *
  have hc : (s.moveSp (-4)).accessClass .dword (s.reg .sp + (-4)) = .ram := h
  unfold State.pushWord
  rw [State.reg_moveSp_same, memWrite_ram hc]
  exact ⟨_, rfl, slot_storeBytes_same _ _ _, fun a ha => storeBytes_outside (s.moveSp (-4)) _ _ _ a ha,
    storeBytes_eq _ _ _ _⟩

theorem pushWord_absent {s : State} (v : Word)
    (h : s.accessClass .dword (pushedAt (s.reg .sp) 0) = .absent) :
    s.pushWord v = .error .accessOutsideMemory := by
  rw [pushedAt_zero] at h
  unfold State.pushWord
  rw [State.reg_moveSp_same]
  exact memWrite_absent h

/-- A push of a word answers a state unless its slot is absent. -/
theorem pushWord_ok {s : State} (v : Word) (h : s.accessClass .dword (pushedAt (s.reg .sp) 0) ≠ .absent) :
    ∃ t, s.pushWord v = .ok t := by
  rw [pushedAt_zero] at h
  unfold State.pushWord
  rw [State.reg_moveSp_same]
  have hc : (s.moveSp (-4)).accessClass .dword (s.reg .sp + (-4)) ≠ .absent := h
  cases hk : (s.moveSp (-4)).accessClass .dword (s.reg .sp + (-4)) with
  | ram => exact ⟨_, memWrite_ram hk⟩
  | device => exact ⟨_, memWrite_device hk⟩
  | absent => exact absurd hk hc

/-- `push R0..Rn` where every slot has memory. -/
theorem pushUpTo_ram {s : State} {n : Nat} (hn : n < 16) (h : s.RamBelow (s.reg .sp) (n + 1)) :
    ∃ t, s.pushUpTo n = .ok t ∧
      (∀ k : Reg, k.val ≤ n → t.slot (pushedAt (s.reg .sp) k.val) = s.pushedValue k) ∧
      SameDataOutside s t (alignedBase .dword (pushedAt (s.reg .sp) n)) (4 * (n + 1)) ∧
      t = { (s.setReg .sp (pushedAt (s.reg .sp) n)) with dmem := t.dmem } := by
  induction n with
  | zero =>
    obtain ⟨t, h1, h2, h3, h4⟩ := pushWord_ram ((s.moveSp (-4)).reg 0) (h 0 (by omega))
    refine ⟨t, h1, ?_, h3, h4⟩
    intro k hk
    obtain rfl : k = 0 := Fin.ext (by simpa using hk)
    rw [show (0 : Reg).val = 0 from rfl, h2, State.pushedValue, if_neg (by decide)]
    exact State.reg_moveSp_other s _ (by decide)
  | succ n ih =>
    obtain ⟨t, h1, h2, h3, h4⟩ := ih (by omega) (fun k hk => h k (by omega))
    have hsp : t.reg .sp = pushedAt (s.reg .sp) n := by
      rw [h4]
      exact State.reg_setReg_same s .sp _
    have hcfg : t.cfg = s.cfg := by rw [h4]; rfl
    have ha : pushedAt (t.reg .sp) 0 = pushedAt (s.reg .sp) (n + 1) := by
      rw [hsp, pushedAt_zero, pushedAt_succ]
    obtain ⟨u, g1, g2, g3, g4⟩ := pushWord_ram (s := t)
      ((t.moveSp (-4)).reg (Fin.ofNat 16 (n + 1))) (by
        rw [ha, accessClass_congr hcfg]
        exact h (n + 1) (by omega))
    rw [ha] at g2 g3 g4
    refine ⟨u, ?_, ?_, sameOutside_succ (by omega) h3 g3, ?_⟩
    · unfold State.pushUpTo
      rw [h1, ok_bind]
      exact g1
    · intro k hk
      by_cases hkn : k.val = n + 1
      · rw [hkn, g2]
        have hk' : Fin.ofNat 16 (n + 1) = k := Fin.ext (by simp only [Fin.ofNat]; omega)
        rw [hk']
        unfold State.pushedValue
        split
        · rename_i hs
          subst hs
          have : n = 13 := by simpa using hkn.symm
          rw [State.reg_moveSp_same, hsp, this]
          exact (pushedAt_succ _ 13).symm
        · rename_i hs
          rw [State.reg_moveSp_other _ _ hs, h4]
          exact State.reg_setReg_other s _ hs
      · rw [← h2 k (by omega)]
        apply slot_congr
        intro b hb
        exact g3 b (pushed_disjoint (by omega) (by omega) hb)
    · rw [g4, h4]
      simp [State.setReg]

/-- `push R0..Rn` answers a state unless a slot is absent. -/
theorem pushUpTo_ok {s : State} {n : Nat}
    (h : ∀ k, k ≤ n → s.accessClass .dword (pushedAt (s.reg .sp) k) ≠ .absent) :
    ∃ t, s.pushUpTo n = .ok t := by
  induction n with
  | zero => exact pushWord_ok _ (h 0 (by omega))
  | succ n ih =>
    obtain ⟨t, ht⟩ := ih (fun k hk => h k (by omega))
    obtain ⟨hf, hsp⟩ := pushUpTo_frame ht
    have hcfg : t.cfg = s.cfg := by rw [hf]; rfl
    obtain ⟨u, hu⟩ := pushWord_ok (s := t) ((t.moveSp (-4)).reg (Fin.ofNat 16 (n + 1))) (by
      rw [hsp, pushedAt_zero, ← pushedAt_succ, accessClass_congr hcfg]
      exact h (n + 1) (by omega))
    exact ⟨u, by unfold State.pushUpTo; rw [ht, ok_bind]; exact hu⟩

/-- `push R0..Rn` stops at the first absent slot. -/
theorem pushUpTo_absent {s : State} {n : Nat}
    (h : ∃ k, k ≤ n ∧ s.accessClass .dword (pushedAt (s.reg .sp) k) = .absent) :
    s.pushUpTo n = .error .accessOutsideMemory := by
  induction n with
  | zero =>
    obtain ⟨k, hk, hc⟩ := h
    obtain rfl : k = 0 := by omega
    exact pushWord_absent _ hc
  | succ n ih =>
    by_cases hp : ∃ k, k ≤ n ∧ s.accessClass .dword (pushedAt (s.reg .sp) k) = .absent
    · unfold State.pushUpTo
      rw [ih hp, error_bind]
    · obtain ⟨k, hk, hc⟩ := h
      have hk' : k = n + 1 := by
        by_contra hne
        exact hp ⟨k, by omega, hc⟩
      subst hk'
      obtain ⟨t, ht⟩ := pushUpTo_ok (s := s) (n := n) (fun k hk he => hp ⟨k, hk, he⟩)
      obtain ⟨hf, hsp⟩ := pushUpTo_frame ht
      have hcfg : t.cfg = s.cfg := by rw [hf]; rfl
      unfold State.pushUpTo
      rw [ht, ok_bind]
      refine pushWord_absent _ ?_
      rw [hsp, pushedAt_zero, ← pushedAt_succ, accessClass_congr hcfg]
      exact hc

/-! ## Pops -/

/-- `pop R0..Rn` with n < 14 where every slot has memory. -/
theorem popDownFrom_ram {s : State} {n : Nat} (hn : n < 14) (h : s.RamAbove (s.reg .sp) (n + 1)) :
    ∃ t, s.popDownFrom n = .ok t ∧
      (∀ k : Reg, k.val ≤ n → t.reg k = s.slot (poppedAt (s.reg .sp) (n - k.val))) ∧
      t.reg .sp = poppedAt (s.reg .sp) (n + 1) ∧
      (∀ k : Reg, n < k.val → k ≠ .sp → t.reg k = s.reg k) ∧
      t = { s with regs := t.regs } := by
  induction n generalizing s with
  | zero =>
    have hc : s.accessClass .dword (s.reg .sp) = .ram := by simpa [poppedAt_zero] using h 0 (by omega)
    refine ⟨_, popReg_ram 0 hc, ?_, ?_, ?_, rfl⟩
    · intro k hk
      obtain rfl : k = 0 := Fin.ext (by simpa using hk)
      rw [State.reg_moveSp_other _ _ (by decide), State.reg_setReg_same]
      simp [poppedAt_zero]
    · rw [State.reg_moveSp_same, State.reg_setReg_other _ _ (by decide)]
      rfl
    · intro k hk hs
      rw [State.reg_moveSp_other _ _ hs, State.reg_setReg_other]
      rintro rfl
      simp at hk
  | succ n ih =>
    have hc : s.accessClass .dword (s.reg .sp) = .ram := by simpa [poppedAt_zero] using h 0 (by omega)
    have hi : (Fin.ofNat 16 (n + 1) : Reg).val = n + 1 := by simp only [Fin.ofNat]; omega
    have hne : Fin.ofNat 16 (n + 1) ≠ Reg.sp := by
      intro e
      have := congrArg Fin.val e
      rw [hi] at this
      simp at this
      omega
    generalize hr : (Fin.ofNat 16 (n + 1) : Reg) = r at *
    have hu := popReg_ram r hc
    generalize hus : (s.setReg r (s.slot (s.reg .sp))).moveSp 4 = u at *
    have hsp : u.reg .sp = s.reg .sp + 4 := by
      rw [← hus, State.reg_moveSp_same, State.reg_setReg_other _ _ (Ne.symm hne)]
    have hd : u.dmem = s.dmem := by rw [← hus]; rfl
    have hcfg : u.cfg = s.cfg := by rw [← hus]; rfl
    obtain ⟨t, h1, h2, h3, h4, h5⟩ := ih (s := u) (by omega) (by
      intro k hk
      rw [hsp, poppedAt_succ, accessClass_congr hcfg]
      exact h (k + 1) (by omega))
    refine ⟨t, ?_, ?_, ?_, ?_, ?_⟩
    · unfold State.popDownFrom
      rw [hr, hu, ok_bind]
      exact h1
    · intro k hk
      by_cases hkn : k.val = n + 1
      · obtain rfl : k = r := Fin.ext (by omega)
        rw [h4 k (by omega) hne, ← hus, State.reg_moveSp_other _ _ hne, State.reg_setReg_same, hkn,
          Nat.sub_self, poppedAt_zero]
      · rw [h2 k (by omega), slot_of_dmem hd, hsp, poppedAt_succ]
        congr 2
        omega
    · rw [h3, hsp, poppedAt_succ]
    · intro k hk hs
      rw [h4 k (by omega) hs, ← hus, State.reg_moveSp_other _ _ hs, State.reg_setReg_other]
      rintro rfl
      omega
    · rw [h5, ← hus]
      rfl

/-- `pop R0..R14` where every slot has memory: the popped R14, moved by 4, is where R13 to R0 come from. -/
theorem popDownFrom_throughSp (s : State) (h : s.accessClass .dword (s.reg 14) = .ram)
    (h2 : s.RamAbove (s.slot (s.reg 14) + 4) 14) :
    ∃ t, s.popDownFrom 14 = .ok t ∧
      (∀ k : Reg, k.val < 14 → t.reg k = s.slot (poppedAt (s.slot (s.reg 14) + 4) (13 - k.val))) ∧
      t.reg 14 = poppedAt (s.slot (s.reg 14) + 4) 14 ∧
      t.reg 15 = s.reg 15 ∧
      t = { s with regs := t.regs } := by
  have hu := popReg_ram 14 h
  generalize hus : (s.setReg 14 (s.slot (s.reg .sp))).moveSp 4 = u at *
  have hsp : u.reg .sp = s.slot (s.reg 14) + 4 := by
    rw [← hus, State.reg_moveSp_same]
    congr 1
    exact State.reg_setReg_same s 14 _
  have hd : u.dmem = s.dmem := by rw [← hus]; rfl
  have hcfg : u.cfg = s.cfg := by rw [← hus]; rfl
  obtain ⟨t, h1, h2, h3, h4, h5⟩ := popDownFrom_ram (s := u) (n := 13) (by omega) (by
      intro k hk
      rw [hsp, accessClass_congr hcfg]
      exact h2 k hk)
  refine ⟨t, ?_, ?_, ?_, ?_, ?_⟩
  · unfold State.popDownFrom
    exact (congrArg (· >>= _) hu).trans h1
  · intro k hk
    rw [h2 k (by omega), slot_of_dmem hd, hsp]
  · exact h3.trans (by rw [hsp])
  · rw [h4 15 (by decide) (by decide), ← hus, State.reg_moveSp_other _ _ (by decide),
      State.reg_setReg_other _ _ (by decide)]
  · rw [h5, ← hus]
    rfl

/-- A read answers a value unless the address is absent. -/
theorem memRead_ok {s : State} {w : Width} {a : Word} (h : s.accessClass w a ≠ .absent) :
    ∃ v t, s.memRead w a = .ok (v, t) := by
  cases hk : s.accessClass w a with
  | ram => exact ⟨_, _, memRead_ram hk⟩
  | device => exact ⟨_, _, memRead_device hk⟩
  | absent => exact absurd hk h

theorem popWord_absent {s : State} (h : s.accessClass .dword (s.reg .sp) = .absent) :
    s.popWord = .error .accessOutsideMemory := by
  unfold State.popWord
  rw [memRead_absent h]
  rfl

theorem popWord_ok {s : State} (h : s.accessClass .dword (s.reg .sp) ≠ .absent) :
    ∃ v t, s.popWord = .ok (v, t) := by
  obtain ⟨v, t, hr⟩ := memRead_ok h
  unfold State.popWord
  rw [hr]
  exact ⟨_, _, rfl⟩

theorem popReg_absent {s : State} (i : Reg) (h : s.accessClass .dword (s.reg .sp) = .absent) :
    s.popReg i = .error .accessOutsideMemory := by
  unfold State.popReg
  rw [memRead_absent h]
  rfl

theorem popReg_ok {s : State} (i : Reg) (h : s.accessClass .dword (s.reg .sp) ≠ .absent) :
    ∃ t, s.popReg i = .ok t := by
  obtain ⟨v, t, hr⟩ := memRead_ok h
  unfold State.popReg
  rw [hr]
  exact ⟨_, rfl⟩

/-- `pop R0..Rn` with n < 14 answers a state unless a slot is absent. -/
theorem popDownFrom_ok {s : State} {n : Nat} (hn : n < 14)
    (h : ∀ k, k ≤ n → s.accessClass .dword (poppedAt (s.reg .sp) k) ≠ .absent) :
    ∃ t, s.popDownFrom n = .ok t ∧ t.reg .sp = poppedAt (s.reg .sp) (n + 1) := by
  induction n generalizing s with
  | zero =>
    obtain ⟨t, ht⟩ := popReg_ok 0 (by simpa [poppedAt_zero] using h 0 (by omega))
    exact ⟨t, ht, (popReg_frame ht).2.2 (by decide)⟩
  | succ n ih =>
    obtain ⟨u, hu⟩ := popReg_ok (Fin.ofNat 16 (n + 1)) (by simpa [poppedAt_zero] using h 0 (by omega))
    obtain ⟨hf, -, hsp⟩ := popReg_frame hu
    have hcfg : u.cfg = s.cfg := by rw [hf]
    have hsp := hsp (by
      intro e
      have := congrArg Fin.val e
      simp [Fin.ofNat] at this
      omega)
    obtain ⟨t, h1, h2⟩ := ih (s := u) (by omega) (by
      intro k hk
      rw [hsp, poppedAt_succ, accessClass_congr hcfg]
      exact h (k + 1) (by omega))
    refine ⟨t, ?_, by rw [h2, hsp, poppedAt_succ]⟩
    unfold State.popDownFrom
    rw [hu, ok_bind]
    exact h1

/-- `pop R0..Rn` stops at an absent slot above R14, as long as R14 itself has not been popped. -/
theorem popDownFrom_absent {s : State} {n : Nat} (hn : n < 16)
    (h : ∃ k, k ≤ (if n < 14 then n else n - 14) ∧
      s.accessClass .dword (poppedAt (s.reg .sp) k) = .absent) :
    s.popDownFrom n = .error .accessOutsideMemory := by
  induction n generalizing s with
  | zero =>
    obtain ⟨k, hk, hc⟩ := h
    obtain rfl : k = 0 := by simpa using hk
    exact popReg_absent 0 (by simpa [poppedAt_zero] using hc)
  | succ n ih =>
    obtain ⟨k, hk, hc⟩ := h
    cases hz : s.accessClass .dword (s.reg .sp) with
    | absent =>
      unfold State.popDownFrom
      rw [popReg_absent _ hz, error_bind]
    | ram | device =>
      have hk0 : k ≠ 0 := by
        rintro rfl
        rw [poppedAt_zero, hz] at hc
        exact absurd hc (by decide)
      obtain ⟨u, hu⟩ := popReg_ok (Fin.ofNat 16 (n + 1)) (by rw [hz]; decide)
      obtain ⟨hf, -, hsp⟩ := popReg_frame hu
      have hcfg : u.cfg = s.cfg := by rw [hf]
      have hsp := hsp (by
        intro e
        have := congrArg Fin.val e
        simp [Fin.ofNat] at this
        split at hk <;> omega)
      unfold State.popDownFrom
      rw [hu, ok_bind]
      refine ih (by omega) ⟨k - 1, by split at hk <;> split <;> omega, ?_⟩
      rw [hsp, poppedAt_succ, accessClass_congr hcfg, show k - 1 + 1 = k by omega]
      exact hc

/-! ## The interrupt -/

/-- One push more after pushes down to the `n`-th slot below the stack pointer of `s`. -/
theorem pushWord_next {s t : State} {n : Nat} (v : Word) (hn : n < 2 ^ 28)
    (hsp : t.reg .sp = pushedAt (s.reg .sp) n) (hcfg : t.cfg = s.cfg)
    (hs : SameDataOutside s t (alignedBase .dword (pushedAt (s.reg .sp) n)) (4 * (n + 1)))
    (h : s.accessClass .dword (pushedAt (s.reg .sp) (n + 1)) = .ram) :
    ∃ u, t.pushWord v = .ok u ∧ u.slot (pushedAt (s.reg .sp) (n + 1)) = v ∧
      SameDataOutside s u (alignedBase .dword (pushedAt (s.reg .sp) (n + 1))) (4 * (n + 1 + 1)) ∧
      (∀ j, j ≤ n → u.slot (pushedAt (s.reg .sp) j) = t.slot (pushedAt (s.reg .sp) j)) ∧
      u.reg .sp = pushedAt (s.reg .sp) (n + 1) ∧
      u = { (t.setReg .sp (pushedAt (s.reg .sp) (n + 1))) with dmem := u.dmem } := by
  have e : pushedAt (t.reg .sp) 0 = pushedAt (s.reg .sp) (n + 1) := by
    rw [hsp, pushedAt_zero, pushedAt_succ]
  obtain ⟨u, h1, h2, h3, h4⟩ := pushWord_ram (s := t) v (by rw [e, accessClass_congr hcfg]; exact h)
  rw [e] at h2 h3 h4
  refine ⟨u, h1, h2, sameOutside_succ hn hs h3, ?_, ?_, h4⟩
  · intro j hj
    exact slot_congr (fun b hb => h3 b (pushed_disjoint (by omega) (by omega) hb))
  · rw [h4]
    exact State.reg_setReg_same t .sp _

/-- Interrupt entry where every slot has memory. -/
theorem interruptEntry_ram {s : State} (h : s.RamBelow (s.reg .sp) 18) :
    ∃ t, s.interruptEntry = .ok t ∧
      (∀ k : Reg, k.val < 15 → t.slot (pushedAt (s.reg .sp) k.val) = s.pushedValue k) ∧
      t.slot (pushedAt (s.reg .sp) 15) = s.a ∧
      t.slot (pushedAt (s.reg .sp) 16) = ccPack s.cfg.ccCodec s.cc ∧
      t.slot (pushedAt (s.reg .sp) 17) = s.pc ∧
      SameDataOutside s t (alignedBase .dword (pushedAt (s.reg .sp) 17)) 72 ∧
      t = { (s.setReg .sp (pushedAt (s.reg .sp) 17)) with
            dmem := t.dmem, ie := false, pc := s.cfg.intVector } := by
  obtain ⟨t0, a1, a2, a3, a4⟩ := pushUpTo_ram (s := s) (n := 14) (by decide) (fun k hk => h k (by omega))
  have asp : t0.reg .sp = pushedAt (s.reg .sp) 14 := by
    rw [a4]
    exact State.reg_setReg_same s .sp _
  have ac : t0.cfg = s.cfg := by rw [a4]; rfl
  obtain ⟨t1, b1, b2, b3, b4, bsp, b5⟩ := pushWord_next t0.a (by decide) asp ac a3 (h 15 (by decide))
  have bc : t1.cfg = s.cfg := by rw [b5]; exact ac
  obtain ⟨t2, c1, c2, c3, c4, csp, c5⟩ :=
    pushWord_next (ccPack t1.cfg.ccCodec t1.cc) (by decide) bsp bc b3 (h 16 (by decide))
  have cc : t2.cfg = s.cfg := by rw [c5]; exact bc
  obtain ⟨t3, d1, d2, d3, d4, -, d5⟩ := pushWord_next t2.pc (by decide) csp cc c3 (h 17 (by decide))
  refine ⟨{ t3 with ie := false, pc := t3.cfg.intVector }, ?_, ?_, ?_, ?_, ?_, d3, ?_⟩
  · unfold State.interruptEntry
    rw [a1, ok_bind, b1, ok_bind, c1, ok_bind, d1]
    rfl
  · intro k hk
    show t3.slot _ = _
    rw [d4 _ (by omega), c4 _ (by omega), b4 _ (by omega)]
    exact a2 k (by omega)
  · show t3.slot _ = _
    rw [d4 _ (by omega), c4 _ (by omega), b2, a4]
    rfl
  · show t3.slot _ = _
    rw [d4 _ (by omega), c2, bc, b5, a4]
    rfl
  · show t3.slot _ = _
    rw [d2, c5, b5, a4]
    rfl
  · rw [d5, c5, b5, a4]
    simp [State.setReg]

/-- The return from an interrupt where every slot has memory. -/
theorem returnFromInterrupt_ram {s : State} (h : s.RamAbove (s.reg 14) 4)
    (h2 : s.RamAbove (s.slot (poppedAt (s.reg 14) 3) + 4) 14) :
    ∃ t, s.returnFromInterrupt = .ok t ∧
      (∀ k : Reg, k.val < 14 →
        t.reg k = s.slot (poppedAt (s.slot (poppedAt (s.reg 14) 3) + 4) (13 - k.val))) ∧
      t.reg 14 = poppedAt (s.slot (poppedAt (s.reg 14) 3) + 4) 14 ∧ t.reg 15 = s.reg 15 ∧
      t = { s with
            regs := t.regs, pc := s.slot (s.reg 14),
            cc := ccUnpack s.cfg.ccCodec (s.slot (poppedAt (s.reg 14) 1)),
            a := s.slot (poppedAt (s.reg 14) 2), ie := true } := by
  have h0 := h 0 (by decide)
  rw [poppedAt_zero] at h0
  have p1 := popWord_ram (s := s) h0
  have s1 : (s.moveSp 4).reg .sp = poppedAt (s.reg 14) 1 := State.reg_moveSp_same s 4
  have p2 := popWord_ram (s := s.moveSp 4) (by rw [s1]; exact h 1 (by decide))
  have s2 : ((s.moveSp 4).moveSp 4).reg .sp = poppedAt (s.reg 14) 2 := by
    rw [State.reg_moveSp_same, s1, ← poppedAt_one, poppedAt_add]
  have p3 := popWord_ram (s := (s.moveSp 4).moveSp 4) (by rw [s2]; exact h 2 (by decide))
  have s3 : (((s.moveSp 4).moveSp 4).moveSp 4).reg .sp = poppedAt (s.reg 14) 3 := by
    rw [State.reg_moveSp_same, s2, ← poppedAt_one, poppedAt_add]
  rw [s1] at p2
  rw [s2] at p3
  generalize hu : (s.moveSp 4).moveSp 4 = u at *
  have o1 : ∀ x, (s.moveSp 4).slot x = s.slot x := fun x => slot_of_dmem rfl x
  have o2 : ∀ x, u.slot x = s.slot x := fun x => slot_of_dmem (by rw [← hu]; rfl) x
  rw [o1] at p2
  rw [o2] at p3
  generalize hw : ({ u.moveSp 4 with
      cc := ccUnpack (u.moveSp 4).cfg.ccCodec (s.slot (poppedAt (s.reg 14) 1))
      a := s.slot (poppedAt (s.reg 14) 2) } : State) = w
  have o3 : ∀ x, w.slot x = s.slot x := fun x => slot_of_dmem (by rw [← hw, ← hu]; rfl) x
  have wsp : w.reg 14 = poppedAt (s.reg 14) 3 := by rw [← hw]; exact s3
  have wc : w.cfg = s.cfg := by rw [← hw, ← hu]; rfl
  obtain ⟨t, g1, g2, g3, g4, g5⟩ := popDownFrom_throughSp w
    (by rw [wsp, accessClass_congr wc]; exact h 3 (by decide))
    (by
      rw [wsp, o3]
      intro k hk
      rw [accessClass_congr wc]
      exact h2 k hk)
  rw [wsp, o3] at g2 g3
  refine ⟨{ t with ie := true, pc := s.slot (s.reg 14) }, ?_, ?_, g3, ?_, ?_⟩
  · unfold State.returnFromInterrupt
    rw [p1, ok_bind]
    dsimp only
    rw [p2, ok_bind]
    dsimp only
    rw [p3, ok_bind]
    dsimp only
    rw [hw, g1]
    rfl
  · intro k hk
    exact (g2 k hk).trans (o3 _)
  · refine g4.trans ?_
    rw [← hw, ← hu]
    show (((s.moveSp 4).moveSp 4).moveSp 4).reg 15 = _
    rw [State.reg_moveSp_other _ _ (by decide), State.reg_moveSp_other _ _ (by decide),
      State.reg_moveSp_other _ _ (by decide)]
  · rw [g5, ← hw, ← hu]
    rfl

end Sys2Proof.Machine
end

