-- ==== Sys2Proof/Tests/Slice0.lean ====
section
/-! SUPPORT. Tests of the model on fixed values, and the witnesses that meet the hypotheses of the statements.
Every expected value comes from the spec: a table of 95_test_vectors.md, an example of a rule, or hand
calculation from a rule; each test names its source. -/

namespace Sys2Proof.Tests

open Sys2Proof.Machine

-- one theorem at a time: many short evaluations side by side would ask for a thread each
set_option Elab.async false

/-! ## Small states -/

/-- The reset state with a program at address 0, A and some registers set. -/
def prog (bs : List Byte) (a : Word) (rs : List (Reg × Word)) : State :=
  rs.foldl (fun s p => s.setReg p.1 p.2) { State.reset.placeBytes 0 bs with a := a }

/-- Data bytes put from an address on. -/
def poke (s : State) : Word → List Byte → State
  | _, [] => s
  | a, b :: bs => poke (s.setDataByte a b) (a + 1) bs

/-- The `n` data bytes from an address on. -/
def peek (s : State) (a : Word) (n : Nat) : List Byte :=
  (List.range n).map (fun k => s.dataByte (a + BitVec.ofNat 32 k))

/-- The memory of 95_test_vectors.md 2.3 and 2.4. -/
def cells (s : State) : State := poke s 0x100 [0xE1, 0xC2, 0xA4, 0xF8, 0x80, 0x7F, 0x00, 0x91]

/-- One step answers a state that meets the check. -/
def after (s : State) (p : State → Bool) : Bool :=
  match step s with
  | .next t => p t
  | .fault _ => false
  | .refused _ => false

/-- One step stops with this fault. -/
def stops (s : State) (f : Fault) : Bool :=
  match step s with
  | .next _ => false
  | .fault g => decide (g = f)
  | .refused _ => false

/-- The state exec answers, where it answers one. -/
def done (i : Instr) (s : State) : State :=
  match exec i s with
  | .next t => t
  | .fault _ => s
  | .refused _ => s

/-- The state a step answers, where it answers one. -/
def stepped (s : State) : State :=
  match step s with
  | .next t => t
  | .fault _ => s
  | .refused _ => s

/-- The outcome is a next state. -/
def goesOn (o : Host.Outcome State Fault Refusal) : Bool :=
  match o with
  | .next _ => true
  | .fault _ => false
  | .refused _ => false

theorem exec_done {i : Instr} {s : State} (h : goesOn (exec i s) = true) : exec i s = .next (done i s) := by
  unfold done
  cases he : exec i s with
  | next t => rfl
  | fault f => simp [goesOn, he] at h
  | refused r => simp [goesOn, he] at h

theorem step_stepped {s : State} (h : goesOn (step s) = true) : step s = .next (stepped s) := by
  unfold stepped
  cases he : step s with
  | next t => rfl
  | fault f => simp [goesOn, he] at h
  | refused r => simp [goesOn, he] at h

/-- The eight flags in the order n v z c c8 z8 c16 z16. -/
def flags (cc : CC) : List Bool := [cc.n, cc.v, cc.z, cc.c, cc.c8, cc.z8, cc.c16, cc.z16]

/-! ## WellFormed refuses what the hardware does not have (30_encoding.md R61, R65) -/

theorem test_wf_no_immediate_bytes : (Instr.j ⟨0, 0⟩).wf = false := by decide
theorem test_wf_six_immediate_bytes : (Instr.rxImm 0 ⟨6, 0⟩).wf = false := by decide
theorem test_wf_64_needs_two_bytes : (Instr.rxImm 0 ⟨1, 64⟩).wf = false := by decide
theorem test_wf_8192_needs_three_bytes : (Instr.ldOffL 0 ⟨2, 8192⟩).wf = false := by decide
theorem test_wf_2_20_needs_four_bytes : (Instr.stOffW 0 ⟨3, 1048576⟩).wf = false := by decide
theorem test_wf_2_27_needs_five_bytes : (Instr.jsr ⟨4, 134217728⟩).wf = false := by decide
theorem test_wf_reserved_fourth_is_not_ei_or_di :
    (Instr.resFourth 0).wf = false ∧ (Instr.resFourth 1).wf = false := by decide
theorem test_wf_reserved_push_needs_a_high_nibble : (Instr.resPush 0 3).wf = false := by decide
theorem test_wf_reserved_pop_needs_a_high_nibble : (Instr.resPop 0 3).wf = false := by decide
theorem test_wf_ends_of_the_ranges :
    (Instr.rxImm 0 ⟨1, 63⟩).wf = true ∧ (Instr.rxImm 0 ⟨1, BitVec.ofInt 32 (-64)⟩).wf = true ∧
    (Instr.rxImm 0 ⟨2, 8191⟩).wf = true ∧ (Instr.rxImm 0 ⟨3, BitVec.ofInt 32 (-1048576)⟩).wf = true ∧
    (Instr.rxImm 0 ⟨4, 134217727⟩).wf = true ∧ (Instr.rxImm 0 ⟨5, 0x80000000⟩).wf = true ∧
    (Instr.rxImm 0 ⟨4, 5⟩).wf = true := by decide

/-! ## Decoding: one word of each constructor, from the tables of R52 to R57 -/

/-- The bytes decode to exactly this instruction, with nothing left over. -/
def reads (bs : List Byte) (i : Instr) : Bool := decide (decode .last4 bs = .ok (i, []))

theorem test_decode_first_level :
    (reads [0x05] (.rxFromA 5) && reads [0x1F] (.aFromRx 15) && reads [0x25, 0x7C] (.ldOffL 5 ⟨1, -4⟩) &&
    reads [0x31] (.ldAccL 1) && reads [0x41] (.ldRegL 1) && reads [0x53, 0x08] (.stOffL 3 ⟨1, 8⟩) &&
    reads [0x62] (.stAccL 2) && reads [0x72] (.stRegL 2) && reads [0x8E, 0xA0, 0x00] (.rxImm 14 ⟨2, 4096⟩) &&
    reads [0x9F] (.aImm 15) && reads [0xB1] (.addA 1) && reads [0xC3] (.subA 3) && reads [0xD2] (.andA 2) &&
    reads [0xE2] (.orA 2)) = true := by decide

theorem test_decode_jumps :
    (reads [0xA0, 0x67] (.j ⟨1, -25⟩) && reads [0xA1, 0x05] (.jlt ⟨1, 5⟩) && reads [0xA2, 0x02] (.jge ⟨1, 2⟩) &&
    reads [0xA3, 0x10] (.jlo ⟨1, 16⟩) && reads [0xA4, 0x7C] (.jhs ⟨1, -4⟩) && reads [0xA5, 0x03] (.jz ⟨1, 3⟩) &&
    reads [0xA6, 0x80, 0x05] (.jnz ⟨2, 5⟩) && reads [0xA7, 0x02] (.jloB ⟨1, 2⟩) &&
    reads [0xA8, 0x02] (.jhsB ⟨1, 2⟩) && reads [0xA9, 0x08] (.jzB ⟨1, 8⟩) && reads [0xAA, 0x02] (.jnzB ⟨1, 2⟩) &&
    reads [0xAB, 0x02] (.jloW ⟨1, 2⟩) && reads [0xAC, 0x02] (.jhsW ⟨1, 2⟩) && reads [0xAD, 0x02] (.jzW ⟨1, 2⟩) &&
    reads [0xAE, 0x02] (.jnzW ⟨1, 2⟩) && reads [0xAF, 0xFA, 0x22] (.jsr ⟨2, -734⟩)) = true := by decide

theorem test_decode_second_level :
    (reads [0xF0] .notA && reads [0xF1] .lslA && reads [0xF2] .lsrA && reads [0xF3] .asrA &&
    reads [0xF4, 0x0F] (.pushR 15) && reads [0xF5, 0x01] (.popR 1) && reads [0xF6] .pushSrp &&
    reads [0xF7] .popA && reads [0xF9] .reti && reads [0xFA] .maskbA && reads [0xFB] .maskwA &&
    reads [0xFC] .sexbA && reads [0xFD] .sexwA && reads [0xFE] .jA) = true := by decide

theorem test_decode_third_and_fourth_level :
    (reads [0xF8, 0x02] (.adcA 2) && reads [0xF8, 0x23, 0x01] (.ldOffB 3 ⟨1, 1⟩) &&
    reads [0xF8, 0x31] (.ldAccB 1) && reads [0xF8, 0x42] (.ldRegB 2) &&
    reads [0xF8, 0x54, 0x7F] (.stOffB 4 ⟨1, -1⟩) && reads [0xF8, 0x65] (.stAccB 5) &&
    reads [0xF8, 0x70] (.stRegB 0) && reads [0xF8, 0x80] .ei && reads [0xF8, 0x81] .di &&
    reads [0xF8, 0x93] (.xorA 3) && reads [0xF8, 0xAA, 0x84, 0x3C] (.ldOffW 10 ⟨2, 572⟩) &&
    reads [0xF8, 0xB1] (.ldAccW 1) && reads [0xF8, 0xC2] (.ldRegW 2) &&
    reads [0xF8, 0xD3, 0x02] (.stOffW 3 ⟨1, 2⟩) && reads [0xF8, 0xE3] (.stAccW 3) &&
    reads [0xF8, 0xF2] (.stRegW 2)) = true := by decide

/-- The reserved rows (R65). -/
theorem test_decode_reserved :
    (reads [0xFF] .resSecond15 && reads [0xF8, 0x1F] (.resThird1 15) && reads [0xF8, 0x82] (.resFourth 2) &&
    reads [0xF8, 0x8F] (.resFourth 15) && reads [0xF4, 0x10] (.resPush 1 0) &&
    reads [0xF5, 0xF0] (.resPop 15 0)) = true := by decide

/-- The immediates of 95_test_vectors.md 2.1. -/
theorem test_decode_immediates :
    (reads [0x80, 0x3F] (.rxImm 0 ⟨1, 63⟩) && reads [0x80, 0x40] (.rxImm 0 ⟨1, -64⟩) &&
    reads [0x80, 0x80, 0x40] (.rxImm 0 ⟨2, 64⟩) && reads [0x80, 0xFF, 0x3F] (.rxImm 0 ⟨2, -65⟩) &&
    reads [0x80, 0x83, 0xFF, 0x7F] (.rxImm 0 ⟨3, 65535⟩) &&
    reads [0x80, 0xC0, 0x80, 0x00] (.rxImm 0 ⟨3, -1048576⟩) &&
    reads [0x80, 0xBF, 0xFF, 0xFF, 0x7F] (.rxImm 0 ⟨4, 134217727⟩) &&
    reads [0x81, 0xC5, 0x93, 0x85, 0x61] (.rxImm 1 ⟨4, 0xF8A4C2E1⟩) &&
    reads [0x80, 0x80, 0x80, 0x80, 0x05] (.rxImm 0 ⟨4, 5⟩)) = true := by decide

/-- The five-byte immediates of 95_test_vectors.md 2.1, in both modes. -/
theorem test_decode_five_byte_immediates :
    decodeImm .last4 [0xEF, 0xAB, 0xB7, 0xEE, 0x0F] = .ok (⟨5, 0xDEADBEEF⟩, []) ∧
    decodeImm .last4 [0x89, 0x8D, 0x8A, 0xE7, 0x08] = .ok (⟨5, 0x12345678⟩, []) ∧
    decodeImm .shift7 [0x8D, 0xF5, 0xB6, 0xFD, 0x6F] = .ok (⟨5, 0xDEADBEEF⟩, []) ∧
    decodeImm .shift7 [0x89, 0x8D, 0x8A, 0xE7, 0x08] = .ok (⟨5, 0x91A2B388⟩, []) ∧
    decodeImm .shift7 [0xFF, 0xBF, 0xFF, 0xFF, 0x7F] = .ok (⟨5, 0xF7FFFFFF⟩, []) := by decide

theorem test_decode_malformed_immediates :
    decodeImm .last4 [0x81, 0x91, 0xD1, 0xAC, 0x78] = .error .fifthByteHighBits ∧
    decodeImm .last4 [0x80, 0x80, 0x80, 0x80, 0x80] = .error .fifthByteContinues ∧
    decodeImm .shift7 [0x80, 0x80, 0x80, 0x80, 0x80] = .error .fifthByteContinues ∧
    decodeImm .last4 [0x80, 0x80, 0x80, 0x80] = .error .truncated := by decide

/-- Opcode-table words with byte 0 in the high byte (R71). -/
theorem test_table_words :
    decodeTableWord 8 0xC1 = some (.subA 1) ∧ decodeTableWord 16 0xF803 = some (.adcA 3) ∧
    decodeTableWord 16 0xF820 = some (.ldOffB 0 ⟨1, 0⟩) ∧ decodeTableWord 8 0xA0 = some (.j ⟨1, 0⟩) ∧
    decodeTableWord 16 0xF401 = some (.pushR 1) := by decide

/-! ## Moves and immediates (95_test_vectors.md 2.2) -/

theorem test_rxFromA : after (prog [0x05] 0xDEADBEEF []) (fun t =>
    t.reg 5 == 0xDEADBEEF && t.a == 0xDEADBEEF && t.pc == 1) = true := by decide
theorem test_aFromRx : after (prog [0x1F] 9 [(15, 0x1234)]) (fun t =>
    t.a == 0x1234 && t.reg 15 == 0x1234 && t.pc == 1) = true := by decide
theorem test_rxImm : after (prog [0x80, 0x7F] 9 []) (fun t =>
    t.reg 0 == 0xFFFFFFFF && t.a == 9 && t.pc == 2) = true := by decide
theorem test_rxImm_padded : after (prog [0x80, 0x80, 0x7F] 9 []) (fun t =>
    t.reg 0 == 0x7F && t.pc == 3) = true := by decide
theorem test_aImm_negative : after (prog [0x98] 9 []) (fun t => t.a == 0xFFFFFFF8 && t.pc == 1) = true := by
  decide
theorem test_aImm_positive : after (prog [0x97] 9 []) (fun t => t.a == 7) = true := by decide

/-! ## Loads (95_test_vectors.md 2.3) -/

theorem test_ldOffL : after (cells (prog [0x25, 0x7F] 0x104 [])) (fun t =>
    t.reg 5 == 0xF8A4C2E1 && t.a == 0x104 && t.pc == 2) = true := by decide
theorem test_ldAccL : after (cells (prog [0x33] 0x102 [])) (fun t => t.reg 3 == 0xF8A4C2E1 && t.pc == 1) =
    true := by decide
theorem test_ldRegL : after (cells (prog [0x42] 9 [(2, 0x104)])) (fun t =>
    t.a == 0x91007F80 && t.reg 2 == 0x104) = true := by decide
theorem test_ldOffB : after (cells (prog [0xF8, 0x23, 0x03] 0x100 [])) (fun t =>
    t.reg 3 == 0xF8 && t.pc == 3) = true := by decide
theorem test_ldAccB_sign_extended : after
    { cells (prog [0xF8, 0x33] 0x104 []) with cfg := { suggestedConfig with loadExt := .sign } } (fun t =>
    t.reg 3 == 0xFFFFFF80 && t.pc == 2) = true := by decide
theorem test_ldRegB : after (cells (prog [0xF8, 0x42] 9 [(2, 0x107)])) (fun t => t.a == 0x91) = true := by
  decide
theorem test_ldOffW : after (cells (prog [0xF8, 0xA4, 0x02] 0x100 [])) (fun t =>
    t.reg 4 == 0xF8A4 && t.pc == 3) = true := by decide
theorem test_ldAccW_sign_extended : after
    { cells (prog [0xF8, 0xB4] 0x107 []) with cfg := { suggestedConfig with loadExt := .sign } } (fun t =>
    t.reg 4 == 0xFFFF9100) = true := by decide
theorem test_ldRegW : after (cells (prog [0xF8, 0xC2] 9 [(2, 0x102)])) (fun t => t.a == 0xF8A4) = true := by
  decide

/-! ## Stores (95_test_vectors.md 2.4) -/

theorem test_stOffL : after (cells (prog [0x51, 0x04] 0x100 [(1, 0x11223344)])) (fun t =>
    peek t 0x100 8 == [0xE1, 0xC2, 0xA4, 0xF8, 0x44, 0x33, 0x22, 0x11] && t.pc == 2) = true := by decide
theorem test_stAccL : after (cells (prog [0x61] 0x103 [(1, 0x11223344)])) (fun t =>
    peek t 0x100 8 == [0x44, 0x33, 0x22, 0x11, 0x80, 0x7F, 0x00, 0x91]) = true := by decide
theorem test_stRegL_at_the_top : after (prog [0x72] 0xCAFEF00D [(2, 0xFFFFFFFF)]) (fun t =>
    peek t 0xFFFFFFFC 5 == [0x0D, 0xF0, 0xFE, 0xCA, 0x00] && t.reg 2 == 0xFFFFFFFF) = true := by decide
theorem test_stOffB_wraps : after (prog [0xF8, 0x51, 0x01] 0xFFFFFFFF [(1, 0x55)]) (fun t =>
    peek t 0xFFFFFFFF 3 == [0x00, 0x55, 0x00]) = true := by decide
theorem test_stAccB : after (cells (prog [0xF8, 0x61] 0x103 [(1, 0x11223344)])) (fun t =>
    peek t 0x100 8 == [0xE1, 0xC2, 0xA4, 0x44, 0x80, 0x7F, 0x00, 0x91]) = true := by decide
theorem test_stRegB : after (cells (prog [0xF8, 0x72] 0xDEADBEEF [(2, 0x106)])) (fun t =>
    peek t 0x100 8 == [0xE1, 0xC2, 0xA4, 0xF8, 0x80, 0x7F, 0xEF, 0x91]) = true := by decide
theorem test_stOffW : after (cells (prog [0xF8, 0xD1, 0x02] 0x100 [(1, 0x11223344)])) (fun t =>
    peek t 0x100 8 == [0xE1, 0xC2, 0x44, 0x33, 0x80, 0x7F, 0x00, 0x91] && t.pc == 3) = true := by decide
theorem test_stAccW : after (cells (prog [0xF8, 0xE1] 0x105 [(1, 0x11223344)])) (fun t =>
    peek t 0x100 8 == [0xE1, 0xC2, 0xA4, 0xF8, 0x44, 0x33, 0x00, 0x91]) = true := by decide
theorem test_stRegW : after (cells (prog [0xF8, 0xF2] 0xDEADBEEF [(2, 0x106)])) (fun t =>
    peek t 0x100 8 == [0xE1, 0xC2, 0xA4, 0xF8, 0x80, 0x7F, 0xEF, 0xBE]) = true := by decide

/-! ## Subtraction and the jumps after it (95_test_vectors.md 2.5, 2.6) -/

/-- A and the flags after `A = A - R1`. -/
def subtracts (a b r : Word) (f : List Bool) : Bool :=
  after (prog [0xC1] a [(1, b)]) (fun t => t.a == r && flags t.cc == f && t.reg 1 == b && t.pc == 1)

theorem test_subA_overflow :
    subtracts 0x80000000 1 0x7FFFFFFF [false, true, false, false, true, false, true, false] = true := by decide
theorem test_subA_borrows :
    (subtracts 0x7FFFFFFF 0xFFFFFFFF 0x80000000 [true, true, false, true, false, true, false, true] &&
    subtracts 0x100 1 0xFF [false, false, false, false, true, false, false, false] &&
    subtracts 0x1234AB00 0x5678AB00 0xBBBC0000 [true, false, false, true, false, true, false, true]) =
    true := by decide

/-- Which of the fifteen jumps to `next + 16` are taken at address 1, after `A = A - R1` at address 0. -/
def taken (a b : Word) : List Bool :=
  let u := done (.subA 1) (prog [] a [(1, b)])
  let imm : Imm := ⟨1, 16⟩
  ([.j imm, .jlt imm, .jge imm, .jlo imm, .jhs imm, .jz imm, .jnz imm, .jloB imm, .jhsB imm, .jzB imm,
    .jnzB imm, .jloW imm, .jhsW imm, .jzW imm, .jnzW imm] : List Instr).map
    (fun i => (done i u).pc == 19)

theorem test_jumps_equal : taken 5 5 =
    [true, false, true, false, true, true, false, false, true, true, false, false, true, true, false] := by
  decide
theorem test_jumps_signed : taken 0x80000000 1 =
    [true, true, false, false, true, false, true, true, false, false, true, true, false, false, true] := by
  decide
theorem test_jumps_low_byte : taken 0x12340078 0x56780078 =
    [true, true, false, true, false, false, true, false, true, true, false, false, true, true, false] := by
  decide
theorem test_jumps_carry : taken 0x00000100 0x000001FF =
    [true, true, false, true, false, false, true, true, false, false, true, true, false, false, true] := by
  decide
theorem test_jump_not_taken_goes_to_next :
    (done (.jz ⟨1, 16⟩) (done (.subA 1) (prog [] 5 [(1, 3)]))).pc = 3 := by decide

/-- The halt idiom and the wrap below 0 (95_test_vectors.md 1.1, 2.6). -/
theorem test_j : after (prog [0xA0, 0x7E] 0 []) (fun t => t.pc == 0) = true ∧
    (done (.j ⟨1, -4⟩) { State.reset with pc := 1 }).pc = 0xFFFFFFFF := by decide
/-- The screenshot's `jsr` at 1055 (95_test_vectors.md 1.7). -/
theorem test_jsr : (done (.jsr ⟨2, -662⟩) { State.reset with pc := 1055 }).pc = 396 ∧
    (done (.jsr ⟨2, -662⟩) { State.reset with pc := 1055 }).reg 15 = 1058 := by decide
theorem test_jA : after (prog [0xFE] 0x123 [(15, 7)]) (fun t =>
    t.pc == 0x123 && t.a == 0x123 && t.reg 15 == 7) = true := by decide

/-! ## Add, adc, logic (95_test_vectors.md 2.7) -/

theorem test_addA_wraps_and_sets_no_flag : after (prog [0xB1] 0xFFFFFFFF [(1, 1)]) (fun t =>
    t.a == 0 && flags t.cc == flags resetCC) = true := by decide
theorem test_andA : after (prog [0xD1] 0xF0F0FF00 [(1, 0x0FF0F0F0)]) (fun t => t.a == 0x00F0F000) = true := by
  decide
theorem test_orA : after (prog [0xE1] 0xF0F0FF00 [(1, 0x0FF0F0F0)]) (fun t => t.a == 0xFFF0FFF0) = true := by
  decide
theorem test_xorA : after (prog [0xF8, 0x91] 0xF0F0FF00 [(1, 0x0FF0F0F0)]) (fun t =>
    t.a == 0xFF000FF0 && t.pc == 2) = true := by decide
theorem test_notA : after (prog [0xF0] 0x0F0F1234 []) (fun t => t.a == 0xF0F0EDCB) = true := by decide
/-- R146: 0xFFFFFFFF + 0xFFFFFFFF + 1 = 0xFFFFFFFF with c = 1, no other flag touched. -/
theorem test_adcA : after
    { prog [0xF8, 0x01] 0xFFFFFFFF [(1, 0xFFFFFFFF)] with cc := { resetCC with c := true, z := true } } (fun t =>
    t.a == 0xFFFFFFFF && flags t.cc == [false, false, true, true, false, false, false, false]) = true := by
  decide
theorem test_adcA_no_carry : after (prog [0xF8, 0x01] 0xFFFFFFFF [(1, 1)]) (fun t =>
    t.a == 0 && t.cc.c && t.pc == 2) = true := by decide

/-! ## Shifts, masks, extensions (95_test_vectors.md 2.8) -/

theorem test_lslA : after (prog [0xF1] 0x80000001 []) (fun t => t.a == 2 && t.cc.c) = true := by decide
theorem test_lsrA : after (prog [0xF2] 0x80000001 []) (fun t => t.a == 0x40000000 && t.cc.c) = true := by decide
theorem test_asrA : after (prog [0xF3] 0x80000001 []) (fun t => t.a == 0xC0000000 && t.cc.c) = true := by decide
theorem test_shift_clears_c_and_keeps_the_others : after
    { prog [0xF1] 0x12345678 [] with cc := ⟨true, true, true, true, true, true, true, true⟩ } (fun t =>
    t.a == 0x2468ACF0 && flags t.cc == [true, true, true, false, true, true, true, true]) = true := by decide
theorem test_maskbA : after (prog [0xFA] 0x12345678 []) (fun t => t.a == 0x78) = true := by decide
theorem test_maskwA : after (prog [0xFB] 0x12345678 []) (fun t => t.a == 0x5678) = true := by decide
theorem test_sexbA : after (prog [0xFC] 0x12345680 []) (fun t => t.a == 0xFFFFFF80) = true := by decide
theorem test_sexbA_positive : after (prog [0xFC] 0xFFFFFF00 []) (fun t => t.a == 0) = true := by decide
theorem test_sexwA : after (prog [0xFD] 0x12348000 []) (fun t => t.a == 0xFFFF8000) = true := by decide
theorem test_sexwA_positive : after (prog [0xFD] 0xFFFF7FFF []) (fun t => t.a == 0x7FFF) = true := by decide

/-! ## The stack (95_test_vectors.md 2.9) -/

theorem test_pushR : after (prog [0xF4, 0x01] 0 [(14, 0xFFC), (0, 0x11), (1, 0x22)]) (fun t =>
    t.slot 0xFF8 == 0x11 && t.slot 0xFF4 == 0x22 && t.reg 14 == 0xFF4 && t.pc == 2) = true := by decide
/-- The row F4 0F: the R14 slot holds its own address, R15 is pushed last. -/
theorem test_pushR_all : after
    (prog [0xF4, 0x0F] 0 [(0, 0x100), (13, 0x10D), (14, 0x2000), (15, 0xBEEF)]) (fun t =>
    t.slot 0x1FFC == 0x100 && t.slot 0x1FC8 == 0x10D && t.slot 0x1FC4 == 0x1FC4 && t.slot 0x1FC0 == 0xBEEF &&
    t.reg 14 == 0x1FC0) = true := by decide
theorem test_popR : after
    (poke (prog [0xF5, 0x01] 0 [(14, 0xFF4)]) 0xFF4 [0x22, 0, 0, 0, 0x11, 0, 0, 0]) (fun t =>
    t.reg 1 == 0x22 && t.reg 0 == 0x11 && t.reg 14 == 0xFFC) = true := by decide
/-- The row F5 0E: the popped R14 redirects the pops that follow. -/
theorem test_popR_through_r14 : after
    (poke (poke (prog [0xF5, 0x0E] 0 [(14, 0x3000)]) 0x3000 [0x00, 0x50]) 0x5004 [0x13, 0x0D]) (fun t =>
    t.reg 13 == 0xD13 && t.reg 14 == 0x503C) = true := by decide
theorem test_pushSrp_aligns_down : after (prog [0xF6] 0 [(14, 0x1003), (15, 0xCAFE)]) (fun t =>
    t.reg 14 == 0xFFF && peek t 0xFFC 4 == [0xFE, 0xCA, 0, 0] && t.pc == 1) = true := by decide
theorem test_pushSrp_wraps : after (prog [0xF6] 0 [(14, 0), (15, 7)]) (fun t =>
    t.reg 14 == 0xFFFFFFFC && peek t 0xFFFFFFFC 4 == [7, 0, 0, 0]) = true := by decide
theorem test_popA : after (poke (prog [0xF7] 0 [(14, 0xFFF)]) 0xFFC [0xFE, 0xCA]) (fun t =>
    t.a == 0xCAFE && t.reg 14 == 0x1003) = true := by decide

/-! ## Interrupts (95_test_vectors.md 2.10, program P4) -/

theorem test_ei : after (prog [0xF8, 0x80] 0 []) (fun t => t.ie && t.pc == 2) = true := by decide
theorem test_di : after { prog [0xF8, 0x81] 0 [] with ie := true } (fun t => !t.ie && t.pc == 2) = true := by
  decide

/-- P4 at the boundary where its interrupt is taken. -/
def p4 : State :=
  { prog [] 2 [(0, 0xAAAA0000), (1, 0x200), (2, 1), (3, 0x33), (14, 0x1000), (15, 0xF00D)] with
    pc := 0x0C, ie := true, irq := [true] }

theorem test_interrupt_entry : after p4 (fun t =>
    t.pc == 0x40 && !t.ie && t.reg 14 == 0xFB8 && t.a == 2 && t.reg 15 == 0xF00D && t.irq == []) = true := by
  decide
theorem test_interrupt_frame : after p4 (fun t =>
    t.slot 0xFFC == 0xAAAA0000 && t.slot 0xFF8 == 0x200 && t.slot 0xFF0 == 0x33 && t.slot 0xFC4 == 0xFC4 &&
    t.slot 0xFC0 == 2 && t.slot 0xFBC == 0 && t.slot 0xFB8 == 0x0C) = true := by decide +kernel

/-- P4's handler at its `reti`, with A, R3 and the flags disturbed. -/
def p4Handler : State :=
  { ((stepped p4).setReg 3 0x15) with
    a := 0xFFFFFE08, cc := ⟨true, false, false, true, false, false, true, false⟩ }

theorem test_reti :
    (done .reti p4Handler).pc = 0x0C ∧ (done .reti p4Handler).a = 2 ∧ (done .reti p4Handler).cc = resetCC ∧
    (done .reti p4Handler).reg 3 = 0x33 ∧ (done .reti p4Handler).reg 14 = 0x1000 ∧
    (done .reti p4Handler).reg 15 = 0xF00D ∧ (done .reti p4Handler).ie = true := by
  decide +kernel
/-- The CC slot 0x00000009: n and c. -/
theorem test_reti_flags :
    flags (done .reti (poke p4Handler 0xFBC [0x09])).cc =
      [true, false, false, true, false, false, false, false] := by decide +kernel
/-- 2.10: a request while IE is 0 does nothing. -/
theorem test_request_while_disabled : after
    { prog [0x05] 7 [] with irq := [true] } (fun t => t.reg 5 == 7 && t.pc == 1) = true := by decide

/-! ## Stops (95_test_vectors.md 2.11; 20_memory.md R38, R41) -/

theorem test_stop_ff : stops (prog [0xFF] 0 []) .reservedEncoding = true := by decide
theorem test_stop_third : (stops (prog [0xF8, 0x10] 0 []) .reservedEncoding &&
    stops (prog [0xF8, 0x1F] 0 []) .reservedEncoding) = true := by decide
theorem test_stop_fourth : (stops (prog [0xF8, 0x82] 0 []) .reservedEncoding &&
    stops (prog [0xF8, 0x8F] 0 []) .reservedEncoding) = true := by decide
theorem test_stop_push_list : stops (prog [0xF4, 0x10] 0 []) .badRegisterList = true := by decide
theorem test_stop_pop_list : stops (prog [0xF5, 0xF0] 0 []) .badRegisterList = true := by decide
theorem test_stop_sixth_immediate_byte :
    stops (prog [0x80, 0x80, 0x80, 0x80, 0x80, 0x80] 0 []) .badImmediate = true := by decide
theorem test_stop_last4_high_bits :
    stops (prog [0x80, 0x80, 0x80, 0x80, 0x80, 0x10] 0 []) .badImmediate = true := by decide
theorem test_shift7_reads_it : after
    { prog [0x80, 0x80, 0x80, 0x80, 0x80, 0x10] 0 [] with cfg := { suggestedConfig with imm5 := .shift7 } }
    (fun t => t.reg 0 == 0x10 && t.pc == 6) = true := by decide
theorem test_stop_no_instruction : stops State.reset .fetchOutsideMemory = true := by decide
theorem test_stop_cut_instruction : stops (prog [0x80, 0x80] 0 []) .fetchOutsideMemory = true := by decide

/-- A platform with memory at 0 to 0xFFF and a device at 0x1000 to 0x10FF, nothing elsewhere. -/
def board : Config := { suggestedConfig with memMap := [⟨0, 0x1000, .ram⟩, ⟨0x1000, 0x100, .device⟩] }

theorem test_device_write : after
    { prog [0xF8, 0x70] 0xABCD [(0, 0x1001)] with cfg := board } (fun t =>
    t.outputs == [⟨0x1001, .byte, 0xCD⟩] && t.dmem == []) = true := by decide
theorem test_stop_absent : stops { prog [0x30] 0x1100 [] with cfg := board } .accessOutsideMemory = true := by
  decide
/-- The alignment comes before the map (R41): 0x1103 is aligned down to 0x1100. -/
theorem test_edge_of_a_region : after { prog [0x61] 0x10FF [(1, 5)] with cfg := board } (fun t =>
    t.outputs == [⟨0x10FC, .dword, 5⟩]) = true ∧
    stops { prog [0x61] 0x1103 [(1, 5)] with cfg := board } .accessOutsideMemory = true := by decide

/-- MEM_ORG = unified: the store into the next instruction is seen by its fetch (R47). -/
def oneMemory : State :=
  { poke (prog [] 0xF0 [(1, 1)]) 0 [0xF8, 0x71] with
    imem := [], cfg := { suggestedConfig with memOrg := .unified } }

theorem test_unified_fetch : after oneMemory (fun t => t.dataByte 1 == 0xF0 && t.fetch 1 == some 0xF0) = true := by
  decide

/-! ## Words placed at pc run there -/

theorem test_withFetchWord : after (State.reset.withFetchWord 16 0xF880) (fun t => t.ie && t.pc == 2) = true ∧
    after ({ State.reset with ie := true, irq := [true] }.withFetchWord 8 0x98)
      (fun t => t.a == 0xFFFFFFF8) = true := by decide
theorem test_withFetchWord_unified : after
    ({ State.reset with cfg := { board with memOrg := .unified }, pc := 0x2000 }.withFetchWord 8 0x97)
    (fun t => t.a == 7 && t.pc == 0x2001) = true := by decide

theorem test_reset_memory_is_canonical :
    Memory.wf unlistedData State.reset.dmem = true ∧ Memory.wf unlistedCode State.reset.imem = true := by decide

/-! ## Witnesses: a state and operands that meet the hypotheses of each statement that has any -/

theorem witness_DecodeOfEncodeIsIdentity : (Instr.ldOffB 3 ⟨5, 0xDEADBEEF⟩).wf = true := by decide

theorem witness_DecodedInstructionIsWellFormed :
    decode .shift7 [0xF8, 0x23, 0x8D, 0xF5, 0xB6, 0xFD, 0x6F, 0x00] =
      .ok (.ldOffB 3 ⟨5, 0xDEADBEEF⟩, [0x00]) := by decide

/-- Under last4 with a five-byte immediate, under shift7 with a four-byte one. -/
theorem witness_EncodingIsUnique :
    (decode .last4 [0x8F, 0x89, 0x8D, 0x8A, 0xE7, 0x08] = .ok (.rxImm 15 ⟨5, 0x12345678⟩, [])) ∧
    (decode .shift7 [0x81, 0xC5, 0x93, 0x85, 0x61] = .ok (.rxImm 1 ⟨4, 0xF8A4C2E1⟩, []) ∧
      (Instr.rxImm 1 ⟨4, 0xF8A4C2E1⟩).length < 6) := by decide

theorem witness_EncodedLengthIsOneToSeven :
    (Instr.stOffW 3 ⟨5, 7⟩).wf = true ∧ (Instr.stOffW 3 ⟨5, 7⟩).length = 7 ∧
    Instr.notA.wf = true ∧ Instr.notA.length = 1 := by decide

/-- An instruction of seven bytes, and a malformed immediate. -/
theorem witness_SevenBytesDecideTheInstruction :
    7 ≤ [0xF8, 0x23, 0x80, 0x80, 0x80, 0x80, 0x0F].length ∧
    decode .last4 [0xF8, 0x23, 0x80, 0x80, 0x80, 0x80, 0x0F] = .ok (.ldOffB 3 ⟨5, 15⟩, []) ∧
    decode .last4 [0xF8, 0x23, 0x80, 0x80, 0x80, 0x80, 0x10] = .error .fifthByteHighBits := by decide

/-- Both ends of each clause's range. -/
theorem witness_FiveByteImmediateReadings :
    (0x0F : Byte).toNat < 16 ∧ (0x7F : Byte).toNat < 128 ∧ 16 ≤ (0x10 : Byte).toNat ∧
    (0x10 : Byte).toNat < 128 ∧ 128 ≤ (0x80 : Byte).toNat := by decide

/-- With a request while IE is 0, and with IE set and no request. -/
theorem witness_StepRunsTheDecodedInstruction :
    let s := { prog [0x05] 7 [] with irq := [true] }
    let u := { s with ie := true, irq := [false, true] }
    (s.ie = false ∧ decode s.cfg.imm5 (s.fetchBytes 7 s.pc) = .ok (.rxFromA 5, [])) ∧
    (u.irq.head? ≠ some true ∧ decode u.cfg.imm5 (u.fetchBytes 7 u.pc) = .ok (.rxFromA 5, [])) := by decide

/-- An instruction whose bytes wrap from the last address to address 0. -/
def atTheTop : State := { State.reset.placeBytes 0xFFFFFFFF [0xA0, 0x7E] with pc := 0xFFFFFFFF }

theorem witness_FetchedEncodingIsExecuted :
    atTheTop.ie = false ∧ (Instr.j ⟨1, -2⟩).wf = true ∧
    ∀ (k : Nat) (b : Byte), (encode atTheTop.cfg.imm5 (.j ⟨1, -2⟩))[k]? = some b →
      atTheTop.fetch (atTheTop.pc + BitVec.ofNat 32 k) = some b := by
  have e : encode atTheTop.cfg.imm5 (.j ⟨1, -2⟩) = [0xA0, 0x7E] := by decide
  refine ⟨by decide, by decide, fun k b h => ?_⟩
  rw [e] at h
  match k, h with
  | 0, h => obtain rfl : b = 0xA0 := by simpa using h.symm
            decide
  | 1, h => obtain rfl : b = 0x7E := by simpa using h.symm
            decide

/-- The second byte of `j #-2` is missing. -/
theorem witness_MissingInstructionByteFaults :
    let s := prog [0xA0] 0 []
    s.ie = false ∧ (Instr.j ⟨1, -2⟩).wf = true ∧ 1 < (Instr.j ⟨1, -2⟩).length ∧
    (∀ (j : Nat) (b : Byte), j < 1 → (encode s.cfg.imm5 (.j ⟨1, -2⟩))[j]? = some b →
      s.fetch (s.pc + BitVec.ofNat 32 j) = some b) ∧
    s.fetch (s.pc + BitVec.ofNat 32 1) = none := by
  have e : encode (prog [0xA0] 0 []).cfg.imm5 (.j ⟨1, -2⟩) = [0xA0, 0x7E] := by decide
  refine ⟨by decide, by decide, by decide, fun j b hj h => ?_, by decide⟩
  obtain rfl : j = 0 := by omega
  rw [e] at h
  obtain rfl : b = 0xA0 := by simpa using h.symm
  decide

/-- One state for each clause; test_stop_* hold the ends of each range. -/
theorem witness_ReservedEncodingsFault :
    (prog [0xFF] 0 []).ie = false ∧ (prog [0xFF] 0 []).fetch 0 = some 0xFF ∧
    (prog [0xF8, 0x1F] 0 []).fetch 1 = some 0x1F ∧ (0x1F : Byte).toNat / 16 = 1 ∧
    (prog [0xF8, 0x8F] 0 []).fetch 1 = some 0x8F ∧ 0x82 ≤ (0x8F : Byte).toNat ∧ (0x8F : Byte).toNat ≤ 0x8F ∧
    (prog [0xF4, 0x10] 0 []).fetch 1 = some 0x10 ∧ (0x10 : Byte).toNat / 16 ≠ 0 ∧
    (prog [0xF5, 0xF0] 0 []).fetch 1 = some 0xF0 ∧ (0xF0 : Byte).toNat / 16 ≠ 0 := by decide

/-- `R0 = sex(nn)` and a `.w` load, each with a fifth byte 0x10 under last4. -/
theorem witness_MalformedImmediateFaults :
    let s := prog [0x80, 0x80, 0x80, 0x80, 0x80, 0x10] 0 []
    let u := prog [0xF8, 0xA0, 0x80, 0x80, 0x80, 0x80, 0x80] 0 []
    s.ie = false ∧ (0x80 : Byte).toNat / 16 = 8 ∧ s.fetchBytes 6 s.pc = [0x80, 0x80, 0x80, 0x80, 0x80, 0x10] ∧
    s.cfg.imm5 = .last4 ∧ 16 ≤ (0x10 : Byte).toNat ∧ 128 ≤ (0x80 : Byte).toNat ∧
    u.ie = false ∧ (0xA0 : Byte).toNat / 16 = 10 ∧
    u.fetchBytes 7 u.pc = [0xF8, 0xA0, 0x80, 0x80, 0x80, 0x80, 0x80] := by decide

/-- For the statements about an instruction with an immediate. -/
theorem witness_immediate_is_read : decodeImm .last4 [0xFA, 0x6A, 0x12] = .ok (⟨2, -662⟩, [0x12]) := by decide

/-- A state right after `A = A - R1`, in which every flag concerned is that of the subtraction. -/
theorem witness_CompareAndJump :
    exec (.subA 1) (prog [] 5 [(1, 3)]) = .next (done (.subA 1) (prog [] 5 [(1, 3)])) :=
  exec_done (by decide)

/-- Memory everywhere: each load and each store has its parts, and its address has memory. -/
theorem witness_LoadsReadMemory :
    let s := prog [] 0x103 [(2, 0x107)]
    let imm : Imm := ⟨1, -1⟩
    [Instr.ldOffL 1 imm, .ldAccL 1, .ldRegL 2, .ldOffB 1 imm, .ldAccB 1, .ldRegB 2, .ldOffW 1 imm, .ldAccW 1,
      .ldRegW 2].all (fun i => match loadParts s i with
        | some (w, _, ea) => s.accessClass w ea == .ram
        | none => false) = true := by decide

theorem witness_StoresWriteMemory :
    let s := prog [] 0x103 [(2, 0x107)]
    let imm : Imm := ⟨1, -1⟩
    [Instr.stOffL 1 imm, .stAccL 1, .stRegL 2, .stOffB 1 imm, .stAccB 1, .stRegB 2, .stOffW 1 imm, .stAccW 1,
      .stRegW 2].all (fun i => match storeParts s i with
        | some (w, ea, _) => s.accessClass w ea == .ram
        | none => false) = true := by decide

/-- The device of `board`, at its last bytes. -/
theorem witness_LoadsReadDevices :
    let s := { prog [] 0x10FF [(2, 0x10FE)] with cfg := board }
    loadParts s (.ldAccB 1) = some (.byte, some 1, 0x10FF) ∧ s.accessClass .byte 0x10FF = .device ∧
    loadParts s (.ldRegW 2) = some (.word, none, 0x10FE) ∧ s.accessClass .word 0x10FE = .device ∧
    loadParts s (.ldAccL 1) = some (.dword, some 1, 0x10FF) ∧ s.accessClass .dword 0x10FF = .device := by decide

theorem witness_StoresToDevicesAreOutputs :
    let s := { prog [] 0x10FF [(2, 0x10FE), (1, 0x12345678)] with cfg := board }
    storeParts s (.stAccB 1) = some (.byte, 0x10FF, 0x12345678) ∧ s.accessClass .byte 0x10FF = .device ∧
    storeParts s (.stRegW 2) = some (.word, 0x10FE, 0x10FF) ∧ s.accessClass .word 0x10FE = .device ∧
    storeParts s (.stAccL 1) = some (.dword, 0x10FF, 0x12345678) ∧
      s.accessClass .dword 0x10FF = .device := by decide

theorem witness_AccessOutsideMemoryFaults :
    let s := { prog [] 0x1100 [(2, 0xFFFFFFFF)] with cfg := board }
    loadParts s (.ldAccL 1) = some (.dword, some 1, 0x1100) ∧ s.accessClass .dword 0x1100 = .absent ∧
    storeParts s (.stRegB 2) = some (.byte, 0xFFFFFFFF, 0x1100) ∧
      s.accessClass .byte 0xFFFFFFFF = .absent := by decide

/-- A write of each width to memory. -/
theorem witness_writes_to_memory :
    let s := prog [] 0 []
    s.accessClass .dword 0xFFFFFFFF = .ram ∧
    s.memWrite .dword 0xFFFFFFFF 7 = .ok (s.storeBytes .dword 0xFFFFFFFC 7) ∧
    s.accessClass .word 0x101 = .ram ∧ s.memWrite .word 0x101 7 = .ok (s.storeBytes .word 0x100 7) ∧
    s.accessClass .byte 0 = .ram ∧ s.memWrite .byte 0 7 = .ok (s.storeBytes .byte 0 7) := by decide

/-- A stack pointer that is no multiple of 4, with memory on both sides. -/
def stack : State := prog [] 2 [(0, 0x10), (13, 0x1D), (14, 0x1003), (15, 0xBEEF)]

/-- For n = 0 to 15, and for the 18 slots of the interrupt frame. -/
theorem witness_PushRangeStoresEachRegister : stack.RamBelow (stack.reg 14) 18 := by
  unfold State.RamBelow
  decide

/-- For n = 0 to 13, and for the slots above the frame. -/
theorem witness_PopRangeLoadsEachRegister : (13 : Reg).val < 14 ∧ stack.RamAbove (stack.reg 14) 18 := by
  unfold State.RamAbove
  decide

/-- For n = 14 and n = 15: the slot of R14 holds 0 here, so the pops go on from address 4. -/
theorem witness_PopRangeThroughTheStackPointer :
    14 ≤ (14 : Reg).val ∧ 14 ≤ (15 : Reg).val ∧ stack.RamAbove (stack.reg 14) 2 ∧
    stack.slot (poppedAt (stack.reg 14) 1) + 4 = 4 ∧ stack.slot (poppedAt (stack.reg 14) 0) + 4 = 4 ∧
    stack.RamAbove 4 14 := by
  unfold State.RamAbove
  decide

/-- The stack on memory, on the device of `board`, and where there is neither. -/
theorem witness_PushSrpAndPopA :
    let s := { stack with cfg := board }
    s.accessClass .dword (pushedAt (s.reg 14) 0) = .ram ∧ s.accessClass .dword (s.reg 14) = .device ∧
    (let u := s.setReg 14 0x1104
     u.accessClass .dword (pushedAt (u.reg 14) 0) = .absent ∧ u.accessClass .dword (u.reg 14) = .absent) ∧
    (let u := s.setReg 14 0x1100
     u.accessClass .dword (pushedAt (u.reg 14) 0) = .device ∧ u.accessClass .dword (u.reg 14) = .absent) ∧
    (let u := s.setReg 14 0xFFC
     u.accessClass .dword (pushedAt (u.reg 14) 0) = .ram ∧ u.accessClass .dword (u.reg 14) = .ram) := by decide

/-- Slots that are partly on the device, and a stack that runs out of the map, below 0 or above 0x10FF. -/
theorem witness_StackNeedsEverySlot :
    let s := { stack with cfg := board }
    (∀ k, k ≤ 15 → s.accessClass .dword (pushedAt (s.reg 14) k) ≠ .absent) ∧
    (∀ k, k ≤ 13 → s.accessClass .dword (poppedAt (s.reg 14) k) ≠ .absent) ∧
    (let u := s.setReg 14 8
     u.accessClass .dword (pushedAt (u.reg 14) 2) = .absent) ∧
    (let u := s.setReg 14 0x10F8
     u.accessClass .dword (poppedAt (u.reg 14) 2) = .absent) ∧
    (let u := s.setReg 14 0x10FC
     u.accessClass .dword (poppedAt (u.reg 14) 1) = .absent) := by decide

/-- A push of all sixteen registers, then nothing, then the pop. -/
theorem witness_PopUndoesPush :
    stack.RamBelow (stack.reg 14) 16 ∧ exec (.pushR 15) stack = .next (done (.pushR 15) stack) :=
  ⟨fun k hk => witness_PushRangeStoresEachRegister k (by omega), exec_done (by decide +kernel)⟩

/-- The same stack with an interrupt at this boundary. -/
def interrupted : State := { stack with ie := true, irq := [true] }

theorem witness_InterruptEntrySavesTheFrame :
    interrupted.ie = true ∧ interrupted.irq.head? = some true ∧
    interrupted.RamBelow (interrupted.reg 14) 18 := by
  unfold State.RamBelow
  decide

theorem witness_InterruptEntryNeedsEverySlot :
    let s := { interrupted with cfg := board }
    (s.ie = true ∧ s.irq.head? = some true ∧
      ∀ k, k < 18 → s.accessClass .dword (pushedAt (s.reg 14) k) ≠ .absent) ∧
    (let u := s.setReg 14 68
     u.accessClass .dword (pushedAt (u.reg 14) 17) = .absent) := by decide

/-- Right after interrupt entry the frame stands above R14. -/
theorem witness_ReturnPopsTheFrame :
    let s := stepped interrupted
    s.RamAbove (s.reg 14) 4 ∧ s.RamAbove (s.slot (poppedAt (s.reg 14) 3) + 4) 14 := by
  unfold State.RamAbove
  decide +kernel

theorem witness_ReturnRestoresTheInterruptedProgram :
    step interrupted = .next (stepped interrupted) ∧ interrupted.RamBelow (interrupted.reg 14) 18 :=
  ⟨step_stepped (by decide +kernel), witness_InterruptEntrySavesTheFrame.2.2⟩

theorem witness_RequestIsIgnoredWhileDisabled : stack.ie = false := by decide

/-- An instruction of each kind that completes: one that writes no flag, one that writes c alone, the writers
of IE, one that leaves A alone, one that goes to `next`, one that neither stores nor loads. -/
theorem witness_exec_completes :
    exec (.addA 1) stack = .next (done (.addA 1) stack) ∧ exec .lslA stack = .next (done .lslA stack) ∧
    exec .ei stack = .next (done .ei stack) ∧ exec .di stack = .next (done .di stack) ∧
    exec (.popR 13) stack = .next (done (.popR 13) stack) ∧
    exec (.pushR 15) stack = .next (done (.pushR 15) stack) ∧ exec .reti stack = .next (done .reti stack) :=
  ⟨exec_done (by decide), exec_done (by decide), exec_done (by decide), exec_done (by decide),
    exec_done (by decide +kernel), exec_done (by decide +kernel), exec_done (by decide +kernel)⟩

theorem witness_exec_completes_kinds :
    (writesCarry (.addA 1) = false ∧ readsFlags (.addA 1) = false ∧ writesIE (.addA 1) = false ∧
      controls (.addA 1) = false ∧ storesData (.addA 1) = false ∧ loadsData (.addA 1) = false ∧
      mayWriteReg (.addA 1) 1 = false) ∧
    (writesAllFlags .lslA = false ∧ readsFlags .lslA = false) ∧
    (mayWriteReg (.popR 13) 15 = false ∧ leavesA (.popR 13) = true ∧ storesData (.popR 13) = false) ∧
    (loadsData (.pushR 15) = false ∧ mayWriteReg (.pushR 15) 15 = false) ∧
    (mayWriteReg .reti 15 = false ∧ storesData .reti = false) := by decide

/-- For each clause of FlagReaders a flag that the instruction does not read is changed. -/
theorem witness_FlagReaders :
    let d : CC := { stack.cc with z := true, c8 := true }
    let e : CC := { stack.cc with n := true }
    d ≠ stack.cc ∧ e ≠ stack.cc ∧ d.c = stack.cc.c ∧ d.n = stack.cc.n ∧ d.v = stack.cc.v ∧
    d.z8 = stack.cc.z8 ∧ d.c16 = stack.cc.c16 ∧ d.z16 = stack.cc.z16 ∧ e.z = stack.cc.z ∧
    e.c8 = stack.cc.c8 := by decide

theorem witness_FlagReaders_completes :
    let imm : Imm := ⟨1, 0⟩
    exec (.adcA 1) stack = .next (done (.adcA 1) stack) ∧
    exec (.jlt imm) stack = .next (done (.jlt imm) stack) ∧
    exec (.jhs imm) stack = .next (done (.jhs imm) stack) ∧
    exec (.jz imm) stack = .next (done (.jz imm) stack) ∧
    exec (.jloB imm) stack = .next (done (.jloB imm) stack) ∧
    exec (.jnzB imm) stack = .next (done (.jnzB imm) stack) ∧
    exec (.jloW imm) stack = .next (done (.jloW imm) stack) ∧
    exec (.jzW imm) stack = .next (done (.jzW imm) stack) :=
  ⟨exec_done (by decide), exec_done (by decide), exec_done (by decide), exec_done (by decide),
    exec_done (by decide), exec_done (by decide), exec_done (by decide), exec_done (by decide)⟩

/-- A run of one step. -/
theorem witness_PlatformIsFixedForARun : Steps (prog [0x05] 7 []) (stepped (prog [0x05] 7 [])) :=
  .tail (.refl _) (step_stepped (by decide))

/-- The one memory of `board`: addresses with memory, on the device, and with neither. -/
def oneBoard : State := { oneMemory with cfg := { board with memOrg := .unified } }

theorem witness_StoresAndFetch :
    (step (prog [0x05] 7 []) = .next (stepped (prog [0x05] 7 [])) ∧
      (prog [0x05] 7 []).cfg.memOrg = .harvard) ∧
    (step oneBoard = .next (stepped oneBoard) ∧ oneBoard.cfg.memOrg = .unified ∧
      classify oneBoard.cfg.memMap 0xFFF = .ram ∧ classify oneBoard.cfg.memMap 0x1000 = .device ∧
      classify oneBoard.cfg.memMap 0x1100 = .absent) :=
  ⟨⟨step_stepped (by decide), by decide⟩, step_stepped (by decide +kernel), by decide, by decide, by decide,
    by decide⟩

/-- A state with data, a program and an output event that meets the invariant and goes on. -/
theorem witness_StepKeepsTheInvariant :
    let s := { cells (prog [0x05] 7 []) with outputs := [⟨0x10FC, .dword, 5⟩] }
    s.Inv ∧ step s = .next (stepped s) := by
  refine ⟨⟨by decide, by decide, ?_⟩, step_stepped (by decide +kernel)⟩
  intro e he
  obtain rfl : e = ⟨0x10FC, .dword, 5⟩ := by simpa using he
  exact ⟨by decide, by decide⟩

/-- Both ways of having no further interrupt: IE = 0 with requests to come, IE = 1 with none to come. -/
theorem witness_EndOfRunLoops :
    State.Ended { prog [0xA0, 0x7E] 0 [] with irq := [true] } ∧
    State.Ended { prog [0xA0, 0x7E] 0 [] with ie := true, irq := [false, false] } :=
  ⟨⟨by decide, by decide, .inl (by decide)⟩, ⟨by decide, by decide, .inr (by decide)⟩⟩

end Sys2Proof.Tests
end

section
/-! The family 00_scope.md: what an instruction that does not write pc itself does before `pc <- next`
(R7, R13). -/

namespace Sys2Proof.Machine

/-- `u` comes from `s` by the work of an instruction before `pc <- next`: pc, the program image, the
interrupt schedule and the platform are those of `s`. -/
def WorkFrame (s u : State) : Prop :=
  u = { s with
        regs := u.regs, a := u.a, cc := u.cc, ie := u.ie, dmem := u.dmem, outputs := u.outputs,
        deviceReads := u.deviceReads }

theorem WorkFrame.pc {s u : State} (h : WorkFrame s u) : u.pc = s.pc := by rw [h]

/-- Work that cannot stop. -/
theorem WorkFrame.of_ok {s u : State} (h : WorkFrame s u) :
    ∀ v, (.ok u : Res State) = .ok v → WorkFrame s v := by
  rintro v ⟨⟩
  exact h

/-! ## The operations that can stop -/

theorem loadToReg_workFrame {s u : State} {w : Width} {x : Reg} {ea : Word}
    (h : s.loadToReg w x ea = .ok u) : WorkFrame s u := by
  obtain ⟨-, hu⟩ := loadToReg_frame h
  rw [hu]
  rfl

theorem loadToAcc_workFrame {s u : State} {w : Width} {ea : Word} (h : s.loadToAcc w ea = .ok u) :
    WorkFrame s u := by
  rw [loadToAcc_frame h]
  rfl

theorem memWrite_workFrame {s u : State} {w : Width} {a v : Word} (h : s.memWrite w a v = .ok u) :
    WorkFrame s u := by
  rw [memWrite_frame h]
  rfl

theorem PushFrame.workFrame {s u : State} (h : PushFrame s u) : WorkFrame s u := by
  rw [h]
  rfl

theorem PopFrame.workFrame {s u : State} (h : PopFrame s u) : WorkFrame s u := by
  rw [h]
  rfl

theorem popAcc_workFrame {s u : State} (h : s.popWord.map (fun r => r.2.setAcc r.1) = .ok u) :
    WorkFrame s u := by
  obtain ⟨⟨v, t⟩, ht, rfl⟩ := map_eq_ok.mp h
  rw [(popWord_frame ht).1]
  rfl

/-! ## Every instruction that does not write pc itself -/

/-- Such an instruction does its work and then ends at `next`, with its own length; a reserved encoding
stops before any work. -/
theorem exec_eq_retire {i : Instr} (hi : controls i = false) (s : State) :
    ∃ r, exec i s = retire i.length r ∧ ∀ u, r = .ok u → WorkFrame s u := by
  cases i with
  | j | jlt | jge | jlo | jhs | jz | jnz | jloB | jhsB | jzB | jnzB | jloW | jhsW | jzW | jnzW | jsr
  | jA | reti => nomatch hi
  | rxFromA | aFromRx | rxImm | aImm | addA | subA | andA | orA | xorA | notA | adcA | lslA | lsrA | asrA
  | maskbA | maskwA | sexbA | sexwA | ei | di => exact ⟨.ok _, rfl, WorkFrame.of_ok rfl⟩
  | ldOffL | ldAccL | ldOffB | ldAccB | ldOffW | ldAccW => exact ⟨_, rfl, fun _ => loadToReg_workFrame⟩
  | ldRegL | ldRegB | ldRegW => exact ⟨_, rfl, fun _ => loadToAcc_workFrame⟩
  | stOffL | stAccL | stRegL | stOffB | stAccB | stRegB | stOffW | stAccW | stRegW =>
    exact ⟨_, rfl, fun _ => memWrite_workFrame⟩
  | pushR => exact ⟨_, rfl, fun _ h => (pushUpTo_frame h).1.workFrame⟩
  | pushSrp => exact ⟨_, rfl, fun _ h => (pushWord_frame h).1.workFrame⟩
  | popR n => exact ⟨_, rfl, fun _ h => (popDownFrom_frame n.isLt h).1.workFrame⟩
  | popA => exact ⟨_, rfl, fun _ => popAcc_workFrame⟩
  | resSecond15 | resThird1 | resFourth | resPush | resPop =>
    exact ⟨.error _, rfl, fun _ h => nomatch h⟩

theorem exec_next_advances {i : Instr} {s t : State} (hi : controls i = false) (h : exec i s = .next t) :
    ∃ u, WorkFrame s u ∧ t = u.advance i.length := by
  obtain ⟨r, hr, hwork⟩ := exec_eq_retire hi s
  obtain ⟨u, hu, ht⟩ := retire_eq_next.mp (hr.symm.trans h)
  exact ⟨u, hwork u hu, ht⟩

/-- Settles O51: `next` is reckoned from the pc that the instruction's work has left as it was. -/
theorem programCounterAdvancesByTheLength : Obligations.ProgramCounterAdvancesByTheLength := by
  intro i s t hi h
  obtain ⟨u, hu, rfl⟩ := exec_next_advances hi h
  rw [State.advance_pc, hu.pc]

end Sys2Proof.Machine
end

section
/-! The family 10_state.md: what an instruction may write, said once for all instructions (R11, R12, R15,
R17, R20). -/

namespace Sys2Proof.Machine

/-- The flags an instruction leaves where the flags before it were `d`: `c` gives the written ones. -/
def flagsAfter (i : Instr) (d c : CC) : CC :=
  if writesAllFlags i then c else if writesCarry i then { d with c := c.c } else d

/-- `t` differs from `s` at most where the instruction may write. -/
structure Footprint (i : Instr) (s t : State) : Prop where
  frame : t = { s with
    regs        := t.regs
    a           := if leavesA i then s.a else t.a
    pc          := t.pc
    cc          := flagsAfter i s.cc t.cc
    ie          := if writesIE i then t.ie else s.ie
    dmem        := if storesData i then t.dmem else s.dmem
    outputs     := if storesData i then t.outputs else s.outputs
    deviceReads := if loadsData i then t.deviceReads else s.deviceReads }
  reg : ∀ r, mayWriteReg i r = false → t.reg r = s.reg r

/-- Every instruction stays within its footprint, by the frame of the operation it is made of. -/
theorem exec_footprint {i : Instr} {s t : State} (h : exec i s = .next t) : Footprint i s t := by
  cases i with
  | resSecond15 | resThird1 | resFourth | resPush | resPop => nomatch h
  | aFromRx | aImm | addA | subA | andA | orA | xorA | notA | adcA | lslA | lsrA | asrA | maskbA | maskwA
  | sexbA | sexwA | ei | di | j | jlt | jge | jlo | jhs | jz | jnz | jloB | jhsB | jzB | jnzB | jloW | jhsW
  | jzW | jnzW | jA =>
    cases h
    exact ⟨rfl, fun _ _ => rfl⟩
  | rxFromA | rxImm | jsr =>
    cases h
    exact ⟨rfl, fun _ hr => State.reg_setReg_other _ _ (of_decide_eq_false hr)⟩
  | ldOffL | ldAccL | ldOffB | ldAccB | ldOffW | ldAccW =>
    obtain ⟨u, hu, rfl⟩ := retire_eq_next.mp h
    obtain ⟨hreg, hframe⟩ := loadToReg_frame hu
    exact ⟨by rw [hframe]; rfl, fun r hr => hreg r (of_decide_eq_false hr)⟩
  | ldRegL | ldRegB | ldRegW =>
    obtain ⟨u, hu, rfl⟩ := retire_eq_next.mp h
    rw [loadToAcc_frame hu]
    exact ⟨rfl, fun _ _ => rfl⟩
  | stOffL | stAccL | stRegL | stOffB | stAccB | stRegB | stOffW | stAccW | stRegW =>
    obtain ⟨u, hu, rfl⟩ := retire_eq_next.mp h
    rw [memWrite_frame hu]
    exact ⟨rfl, fun _ _ => rfl⟩
  | pushR =>
    obtain ⟨u, hu, rfl⟩ := retire_eq_next.mp h
    obtain ⟨hframe, -⟩ := pushUpTo_frame hu
    exact ⟨by rw [hframe]; rfl, fun r hr => hframe.reg (of_decide_eq_false hr)⟩
  | pushSrp =>
    obtain ⟨u, hu, rfl⟩ := retire_eq_next.mp h
    obtain ⟨hframe, -⟩ := pushWord_frame hu
    exact ⟨by rw [hframe]; rfl, fun r hr => hframe.reg (of_decide_eq_false hr)⟩
  | popR n =>
    obtain ⟨u, hu, rfl⟩ := retire_eq_next.mp h
    obtain ⟨hframe, hreg⟩ := popDownFrom_frame n.isLt hu
    refine ⟨by rw [hframe]; rfl, fun r hr => ?_⟩
    obtain ⟨hn, hsp⟩ := not_or.mp (of_decide_eq_false hr)
    exact hreg r (Fin.not_le.mp hn) hsp
  | popA =>
    obtain ⟨u, hu, rfl⟩ := retire_eq_next.mp h
    obtain ⟨⟨v, w⟩, hw, rfl⟩ := map_eq_ok.mp hu
    obtain ⟨hframe, -, hreg⟩ := popWord_frame hw
    exact ⟨by rw [hframe]; rfl, fun r hr => hreg r (of_decide_eq_false hr)⟩
  | reti =>
    obtain ⟨hsrp, -, hframe⟩ := returnFromInterrupt_frame (outcome_eq_next.mp h)
    refine ⟨hframe, fun r hr => ?_⟩
    obtain rfl : r = .srp := not_not.mp (of_decide_eq_false hr)
    exact hsrp

/-! ## The footprint, field by field -/

namespace Footprint

variable {i : Instr} {s t : State}

theorem a (h : Footprint i s t) (hi : leavesA i = true) : t.a = s.a :=
  (congrArg State.a h.frame).trans (if_pos hi)

theorem cc (h : Footprint i s t) : t.cc = flagsAfter i s.cc t.cc := congrArg State.cc h.frame

theorem ie_eq (h : Footprint i s t) : t.ie = if writesIE i then t.ie else s.ie := congrArg State.ie h.frame

theorem ie (h : Footprint i s t) (hi : writesIE i = false) : t.ie = s.ie :=
  h.ie_eq.trans (if_neg (by simp [hi]))

theorem dmem (h : Footprint i s t) (hi : storesData i = false) : t.dmem = s.dmem :=
  (congrArg State.dmem h.frame).trans (if_neg (by simp [hi]))

theorem outputs (h : Footprint i s t) (hi : storesData i = false) : t.outputs = s.outputs :=
  (congrArg State.outputs h.frame).trans (if_neg (by simp [hi]))

theorem deviceReads (h : Footprint i s t) (hi : loadsData i = false) : t.deviceReads = s.deviceReads :=
  (congrArg State.deviceReads h.frame).trans (if_neg (by simp [hi]))

theorem imem (h : Footprint i s t) : t.imem = s.imem := by rw [h.frame]

theorem irq (h : Footprint i s t) : t.irq = s.irq := by rw [h.frame]

theorem cfg (h : Footprint i s t) : t.cfg = s.cfg := by rw [h.frame]

end Footprint

theorem writesAllFlags_of_writesCarry {i : Instr} (hi : writesCarry i = false) :
    writesAllFlags i = false := by
  cases i with
  | subA | reti => nomatch hi
  | _ => rfl

/-- Settles O46: the flags an instruction leaves, where it writes none and where it writes c alone. -/
theorem flagWriters : Obligations.FlagWriters := by
  intro i s t h
  have hcc := (exec_footprint h).cc
  refine ⟨fun hc => ?_, fun ha => ?_⟩
  · simpa [flagsAfter, writesAllFlags_of_writesCarry hc, hc] using hcc
  · cases hc : writesCarry i with
    | true => simpa [flagsAfter, ha, hc] using hcc
    | false =>
      have hsame : t.cc = s.cc := by simpa [flagsAfter, ha, hc] using hcc
      rw [hsame]

/-- Settles O49: the footprint on registers. -/
theorem unnamedRegistersAreKept : Obligations.UnnamedRegistersAreKept :=
  fun _ _ _ r h hr => (exec_footprint h).reg r hr

/-- Settles O52: a data byte is read off data memory alone. -/
theorem dataMemoryIsWrittenByStoresAndPushes : Obligations.DataMemoryIsWrittenByStoresAndPushes := by
  intro i s t h
  have hf := exec_footprint h
  refine ⟨fun hi => ⟨fun a => ?_, hf.outputs hi⟩, hf.deviceReads⟩
  unfold State.dataByte
  rw [hf.dmem hi]

end Sys2Proof.Machine
end

section
/-! The family 10_state.md: one step, and what every step keeps (R20, R22, R23, R184). -/

namespace Sys2Proof.Machine

/-! ## What a step can do -/

/-- A step is one interrupt entry where a request is taken, else one instruction. -/
theorem step_cases {s t : State} (h : step s = .next t) :
    (s.takesInterrupt = true ∧ s.passBoundary.interruptEntry = .ok t) ∨
    (s.takesInterrupt = false ∧ ∃ i, s.fetchInstr = .ok i ∧ exec i s.passBoundary = .next t) := by
  unfold step at h
  split at h
  · next htake => exact .inl ⟨htake, outcome_eq_next.mp h⟩
  · next htake =>
    refine .inr ⟨Bool.eq_false_iff.mpr htake, ?_⟩
    split at h
    · next i hi => exact ⟨i, hi, h⟩
    · nomatch h

/-! ## What every push keeps -/

section Pushes

variable {P : State → Prop} (hpush : ∀ {s t : State} {v : Word}, P s → s.pushWord v = .ok t → P t)
include hpush

/-- What every push keeps, a range of pushes keeps. -/
theorem pushUpTo_keeps {s t : State} {n : Nat} (hs : P s) (h : s.pushUpTo n = .ok t) : P t := by
  induction n generalizing t with
  | zero => exact hpush hs h
  | succ n ih =>
    obtain ⟨u, hu, ht⟩ := bind_eq_ok.mp h
    exact hpush (ih hu) ht

/-- Interrupt entry is eighteen pushes, after which IE and pc are written. -/
theorem interruptEntry_keeps {s t : State} (hs : P s) (h : s.interruptEntry = .ok t) :
    ∃ u, P u ∧ t = { u with ie := false, pc := u.cfg.intVector } := by
  obtain ⟨u0, h0, h⟩ := bind_eq_ok.mp h
  obtain ⟨u1, h1, h⟩ := bind_eq_ok.mp h
  obtain ⟨u2, h2, h⟩ := bind_eq_ok.mp h
  obtain ⟨u3, h3, h⟩ := bind_eq_ok.mp h
  cases h
  exact ⟨u3, hpush (hpush (hpush (pushUpTo_keeps hpush hs h0) h1) h2) h3, rfl⟩

end Pushes

/-- Interrupt entry is pushes alone, after which IE and pc are written. -/
theorem interruptEntry_frame {s t : State} (h : s.interruptEntry = .ok t) :
    ∃ u, PushFrame s u ∧ t = { u with ie := false, pc := u.cfg.intVector } :=
  interruptEntry_keeps (fun hs h => hs.trans (pushWord_frame h).1) (PushFrame.refl s) h

/-! ## The invariant -/

/-- The invariant speaks of three fields alone. -/
theorem State.Inv.congr {s t : State} (hs : s.Inv) (hd : t.dmem = s.dmem) (hi : t.imem = s.imem)
    (ho : t.outputs = s.outputs) : t.Inv :=
  ⟨by rw [hd]; exact hs.data, by rw [hi]; exact hs.code, by rw [ho]; exact hs.outputs⟩

/-- A store keeps the invariant: to memory it keeps the canonical form, to a device it adds an aligned
event of its width. -/
theorem memWrite_inv {s t : State} {w : Width} {a v : Word} (hs : s.Inv) (h : s.memWrite w a v = .ok t) :
    t.Inv := by
  have hframe := memWrite_frame h
  refine ⟨memWrite_wf h hs.data, ?_, ?_⟩
  · rw [hframe]
    exact hs.code
  · obtain ⟨-, rfl⟩ | ⟨-, rfl⟩ := memWrite_cases h
    · rw [storeBytes_eq]
      exact hs.outputs
    · exact List.forall_mem_append.mpr ⟨hs.outputs, List.forall_mem_singleton.mpr (deviceWrite_wf w a v)⟩

theorem pushWord_inv {s t : State} {v : Word} (hs : s.Inv) (h : s.pushWord v = .ok t) : t.Inv :=
  memWrite_inv (s := s.moveSp (-4)) (hs.congr rfl rfl rfl) h

theorem interruptEntry_inv {s t : State} (hs : s.Inv) (h : s.interruptEntry = .ok t) : t.Inv := by
  obtain ⟨u, hu, rfl⟩ := interruptEntry_keeps pushWord_inv hs h
  exact hu.congr rfl rfl rfl

/-- Every instruction keeps the invariant: the stores and pushes by the law of a store, the others because
they write none of the fields it speaks of. -/
theorem exec_inv {i : Instr} {s t : State} (hs : s.Inv) (h : exec i s = .next t) : t.Inv := by
  cases hi : storesData i with
  | false =>
    have hf := exec_footprint h
    exact hs.congr (hf.dmem hi) hf.imem (hf.outputs hi)
  | true =>
    cases i with
    | stOffL | stAccL | stRegL | stOffB | stAccB | stRegB | stOffW | stAccW | stRegW =>
      obtain ⟨u, hu, rfl⟩ := retire_eq_next.mp h
      exact (memWrite_inv hs hu).congr rfl rfl rfl
    | pushR =>
      obtain ⟨u, hu, rfl⟩ := retire_eq_next.mp h
      exact (pushUpTo_keeps pushWord_inv hs hu).congr rfl rfl rfl
    | pushSrp =>
      obtain ⟨u, hu, rfl⟩ := retire_eq_next.mp h
      exact (pushWord_inv hs hu).congr rfl rfl rfl
    | _ => nomatch hi

/-- Settles O56: interrupt entry keeps the invariant push by push, an instruction by `exec_inv`. -/
theorem stepKeepsTheInvariant : Obligations.StepKeepsTheInvariant := by
  intro s t hs h
  have hpass : s.passBoundary.Inv := hs.congr rfl rfl rfl
  obtain ⟨-, hentry⟩ | ⟨-, i, -, hexec⟩ := step_cases h
  · exact interruptEntry_inv hpass hentry
  · exact exec_inv hpass hexec

/-- Settles O57: after reset both memories and the list of output events are empty. -/
theorem resetSatisfiesTheInvariant : Obligations.ResetSatisfiesTheInvariant :=
  fun _ => ⟨rfl, rfl, List.forall_mem_nil _⟩

/-- Settles O58: the reset state holds these values. -/
theorem resetDisablesInterrupts : Obligations.ResetDisablesInterrupts :=
  fun _ => ⟨rfl, rfl, rfl, rfl⟩

/-! ## The platform -/

/-- A step keeps the parameters and the program image, and uses up one entry of the schedule. -/
theorem step_platform {s t : State} (h : step s = .next t) :
    t.cfg = s.cfg ∧ t.imem = s.imem ∧ t.irq = s.irq.tail := by
  obtain ⟨-, hentry⟩ | ⟨-, i, -, hexec⟩ := step_cases h
  · obtain ⟨u, hu, rfl⟩ := interruptEntry_frame hentry
    rw [hu]
    exact ⟨rfl, rfl, rfl⟩
  · have hf := exec_footprint hexec
    exact ⟨hf.cfg, hf.imem, hf.irq⟩

/-- Settles O54, by induction on the run. -/
theorem platformIsFixedForARun : Obligations.PlatformIsFixedForARun := by
  intro s t h
  induction h with
  | refl => exact ⟨rfl, rfl, 0, rfl⟩
  | tail _ hs ih =>
    obtain ⟨hcfg, himem, k, hirq⟩ := ih
    obtain ⟨hcfg', himem', hirq'⟩ := step_platform hs
    exact ⟨hcfg'.trans hcfg, himem'.trans himem, k + 1, by rw [hirq', hirq, List.tail_drop]⟩

end Sys2Proof.Machine
end

section
/-! The family 10_state.md: what an instruction does not read (R12, R15, R17, R20). -/

namespace Sys2Proof.Machine

/-! ## Updates that an operation passes on -/

/-- An instruction that ends at `next` passes on an update that its work passes on. -/
theorem retire_blind {f : State → State} (hpc : ∀ s n, (f s).advance n = f (s.advance n)) {n : Nat}
    {r r' : Res State} {t : State} (hr : r' = r.map f) (h : retire n r = .next t) :
    retire n r' = .next (f t) := by
  obtain ⟨u, rfl, rfl⟩ := retire_eq_next.mp h
  rw [hr, ← hpc]
  rfl

namespace Blind

variable {f : State → State}

theorem loadToAcc (hf : Blind f) (ha : ∀ s v, (f s).setAcc v = f (s.setAcc v)) (s : State) (w : Width)
    (ea : Word) : (f s).loadToAcc w ea = (s.loadToAcc w ea).map f := by
  unfold State.loadToAcc
  rw [hf.memRead]
  cases s.memRead w ea with
  | error e => rfl
  | ok p =>
    refine congrArg Except.ok ?_
    show (f p.2).setAcc (widen (f p.2).cfg.loadExt w p.1) = f (p.2.setAcc (widen p.2.cfg.loadExt w p.1))
    rw [hf.loadExt, ha]

theorem popAcc (hf : Blind f) (ha : ∀ s v, (f s).setAcc v = f (s.setAcc v)) (s : State) :
    (f s).popWord.map (fun r => r.2.setAcc r.1) = (s.popWord.map (fun r => r.2.setAcc r.1)).map f := by
  rw [hf.popWord]
  cases s.popWord with
  | error e => rfl
  | ok p => exact congrArg Except.ok (ha p.2 p.1)

theorem popWord_ok (hf : Blind f) {s t : State} {v : Word} (h : s.popWord = .ok (v, t)) :
    (f s).popWord = .ok (v, f t) := by
  rw [hf.popWord, h]
  rfl

end Blind

/-! ## Flags, IE and the program image: what passes them on -/

/-- What the flags tell an instruction, one bit (R15): the carry-in of `adc`, the condition of a jump. -/
def flagBit : Instr → CC → Bool
  | .adcA _, cc => cc.c
  | .jlt _, cc => condLt cc
  | .jge _, cc => condGe cc
  | .jlo _, cc => condLo cc
  | .jhs _, cc => condHs cc
  | .jz _, cc => condZ cc
  | .jnz _, cc => condNz cc
  | .jloB _, cc => condLoB cc
  | .jhsB _, cc => condHsB cc
  | .jzB _, cc => condZB cc
  | .jnzB _, cc => condNzB cc
  | .jloW _, cc => condLoW cc
  | .jhsW _, cc => condHsW cc
  | .jzW _, cc => condZW cc
  | .jnzW _, cc => condNzW cc
  | _, _ => false

/-- An instruction that reads no flag is told nothing. -/
theorem flagBit_of_readsFlags {i : Instr} (hi : readsFlags i = false) (c d : CC) :
    flagBit i d = flagBit i c := by
  cases i with
  | adcA | jlt | jge | jlo | jhs | jz | jnz | jloB | jhsB | jzB | jnzB | jloW | jhsW | jzW | jnzW =>
    nomatch hi
  | _ => rfl

/-- The state with other flags, another IE and another program image. -/
def withUnread (d : CC) (b : Bool) (m : Memory) (s : State) : State := { s with cc := d, ie := b, imem := m }

theorem blind_withUnread (d : CC) (b : Bool) (m : Memory) : Blind (withUnread d b m) := by
  apply blind_of <;> intros <;> rfl

/-- A jump whose condition comes out the same. -/
theorem jumpIf_withUnread {d : CC} {b : Bool} {m : Memory} {s : State} {imm : Imm} {taken taken' : Bool}
    (h : taken' = taken) :
    Host.Outcome.next ((withUnread d b m s).jumpIf taken' imm) =
      (.next (withUnread d b m (s.jumpIf taken imm)) : Host.Outcome State Fault Refusal) := by
  rw [h]
  rfl

/-- The return from an interrupt overwrites flags and IE. -/
theorem returnFromInterrupt_withUnread {s t : State} (d : CC) (b : Bool) (m : Memory)
    (h : s.returnFromInterrupt = .ok t) :
    (withUnread d b m s).returnFromInterrupt = .ok (withUnread t.cc t.ie m t) := by
  obtain ⟨⟨newPc, t1⟩, h1, h⟩ := bind_eq_ok.mp h
  obtain ⟨⟨w, t2⟩, h2, h⟩ := bind_eq_ok.mp h
  obtain ⟨⟨v, t3⟩, h3, h⟩ := bind_eq_ok.mp h
  obtain ⟨t4, h4, h⟩ := bind_eq_ok.mp h
  have hf := blind_withUnread d b m
  have hpop := (blind_withUnread (ccUnpack t3.cfg.ccCodec w) b m).popDownFrom
    { t3 with cc := ccUnpack t3.cfg.ccCodec w, a := v } 14
  rw [h4] at hpop
  obtain ⟨hframe, -⟩ := popDownFrom_frame (by decide) h4
  cases h
  refine bind_eq_ok.mpr ⟨_, hf.popWord_ok h1, bind_eq_ok.mpr ⟨_, hf.popWord_ok h2,
    bind_eq_ok.mpr ⟨_, hf.popWord_ok h3, bind_eq_ok.mpr ⟨_, hpop, ?_⟩⟩⟩⟩
  rw [hframe]
  rfl

/-- No instruction sees a change of the flags that does not reach the bit it is told, of IE, or of the
program image: what it does not write keeps the changed value. -/
theorem exec_withUnread {i : Instr} {s t : State} {d : CC} (b : Bool) (m : Memory)
    (hd : flagBit i d = flagBit i s.cc) (h : exec i s = .next t) :
    exec i (withUnread d b m s) =
      .next (withUnread (flagsAfter i d t.cc) (if writesIE i then t.ie else b) m t) := by
  have hf := blind_withUnread d b m
  have hpc : ∀ s n, (withUnread d b m s).advance n = withUnread d b m (s.advance n) := fun _ _ => rfl
  have ha : ∀ s v, (withUnread d b m s).setAcc v = withUnread d b m (s.setAcc v) := fun _ _ => rfl
  cases i with
  | resSecond15 | resThird1 | resFourth | resPush | resPop => nomatch h
  | rxFromA | aFromRx | rxImm | aImm | addA | subA | andA | orA | xorA | notA | lslA | lsrA | asrA | maskbA
  | maskwA | sexbA | sexwA | ei | di | j | jsr | jA =>
    cases h
    rfl
  | adcA =>
    cases h
    obtain ⟨n, v, z, c, c8, z8, c16, z16⟩ := d
    cases (hd : c = s.cc.c)
    rfl
  | jlt imm | jge imm | jlo imm | jhs imm | jz imm | jnz imm | jloB imm | jhsB imm | jzB imm | jnzB imm
  | jloW imm | jhsW imm | jzW imm | jnzW imm =>
    cases h
    exact jumpIf_withUnread hd
  | ldOffL | ldAccL | ldOffB | ldAccB | ldOffW | ldAccW => exact retire_blind hpc (hf.loadToReg s _ _ _) h
  | ldRegL | ldRegB | ldRegW => exact retire_blind hpc (hf.loadToAcc ha s _ _) h
  | stOffL | stAccL | stRegL | stOffB | stAccB | stRegB | stOffW | stAccW | stRegW =>
    exact retire_blind hpc (hf.memWrite s _ _ _) h
  | pushR n => exact retire_blind hpc (hf.pushUpTo s n.val) h
  | pushSrp => exact retire_blind hpc (hf.pushReg s .srp) h
  | popR n => exact retire_blind hpc (hf.popDownFrom s n.val) h
  | popA => exact retire_blind hpc (hf.popAcc ha s) h
  | reti =>
    exact congrArg outcome (returnFromInterrupt_withUnread d b m (outcome_eq_next.mp h))

/-! ## The flags, the program image and IE in turn -/

/-- With other flags that tell the instruction the same bit, it does the same, and the flags it does not
write keep the given values. -/
theorem exec_withFlags {i : Instr} {s t : State} {d : CC} (hd : flagBit i d = flagBit i s.cc)
    (h : exec i s = .next t) :
    exec i { s with cc := d } = .next { t with cc := flagsAfter i d t.cc } := by
  have hf := exec_footprint h
  refine (exec_withUnread s.ie s.imem hd h).trans (congrArg Host.Outcome.next ?_)
  rw [← hf.ie_eq, ← hf.imem]
  rfl

/-- Settles O47: in each clause the two flag registers tell the instruction the same bit, and of a pair of
jumps the second is told the flag negated. -/
theorem flagReaders : Obligations.FlagReaders := by
  intro i s t d h
  refine ⟨fun hi => exec_withFlags (flagBit_of_readsFlags hi _ _) h, ?_, ?_, ?_, ?_, ?_, ?_, ?_, ?_⟩
  · rintro x rfl hc
    exact exec_withFlags hc h
  · rintro imm (rfl | rfl) hn hv
    · exact exec_withFlags (by simp only [flagBit, condLt, hn, hv]) h
    · exact exec_withFlags (by simp only [flagBit, condGe, hn, hv]) h
  all_goals
    rintro imm (rfl | rfl) hflag
    · exact exec_withFlags hflag h
    · exact exec_withFlags (congrArg not hflag) h

/-- Settles O53: with the flags and IE as they stand, only the program image is another. -/
theorem instructionsDoNotTouchInstructionMemory : Obligations.InstructionsDoNotTouchInstructionMemory := by
  intro i s t m h
  have hf := exec_footprint h
  have hx := exec_withUnread s.ie m rfl h
  rw [← hf.ie_eq, ← hf.cc] at hx
  exact ⟨hf.imem, hx⟩

/-- No instruction reads IE: with another IE it does the same, and leaves that IE where it writes none. -/
theorem exec_withIE {i : Instr} {s t : State} (b : Bool) (h : exec i s = .next t) :
    exec i { s with ie := b } = .next { t with ie := if writesIE i then t.ie else b } := by
  have hf := exec_footprint h
  refine (exec_withUnread b s.imem rfl h).trans (congrArg Host.Outcome.next ?_)
  rw [← hf.cc, ← hf.imem]
  rfl

theorem exec_enables_ie {i : Instr} {s t : State} (h : exec i s = .next t) (hi : i = .ei ∨ i = .reti) :
    t.ie = true := by
  obtain rfl | rfl := hi
  · cases h
    rfl
  · obtain ⟨-, hie, -⟩ := returnFromInterrupt_frame (outcome_eq_next.mp h)
    exact hie

theorem exec_di_ie {s t : State} (h : exec .di s = .next t) : t.ie = false := by
  cases h
  rfl

theorem takesInterrupt_of_request {s : State} (hie : s.ie = true) (hirq : s.irq.head? = some true) :
    s.takesInterrupt = true := by
  simp [State.takesInterrupt, State.irqNow, List.headD_eq_head?_getD, hie, hirq]

/-- Settles O48: the instructions by their footprint and by `exec_withIE`, the interrupted step by its
entry. -/
theorem interruptEnableHasFourWriters : Obligations.InterruptEnableHasFourWriters := by
  refine ⟨fun i s t b h => ⟨(exec_footprint h).ie, exec_enables_ie h, ?_, exec_withIE b h⟩, ?_,
    fun _ => rfl⟩
  · rintro rfl
    exact exec_di_ie h
  · intro s t hie hirq h
    obtain ⟨-, hentry⟩ | ⟨hno, -⟩ := step_cases h
    · obtain ⟨u, -, rfl⟩ := interruptEntry_frame hentry
      rfl
    · rw [takesInterrupt_of_request hie hirq] at hno
      nomatch hno

/-! ## The accumulator -/

/-- An instruction of R12's list does the same whatever A holds, and leaves it. -/
theorem exec_withAcc {i : Instr} {s t : State} (v : Word) (hi : leavesA i = true) (h : exec i s = .next t) :
    exec i { s with a := v } = .next { t with a := v } := by
  have hf := blind_a v
  cases i with
  | rxImm | j | jlt | jge | jlo | jhs | jz | jnz | jloB | jhsB | jzB | jnzB | jloW | jhsW | jzW | jnzW | jsr
  | ei | di =>
    cases h
    rfl
  | pushR n => exact retire_blind (fun _ _ => rfl) (hf.pushUpTo s n.val) h
  | pushSrp => exact retire_blind (fun _ _ => rfl) (hf.pushReg s .srp) h
  | popR n => exact retire_blind (fun _ _ => rfl) (hf.popDownFrom s n.val) h
  | _ => nomatch hi

/-- Settles O50: the footprint leaves A out, and the pushes and pops are blind to A. -/
theorem accumulatorIsLeftAlone : Obligations.AccumulatorIsLeftAlone :=
  fun _ _ _ v hi h => ⟨(exec_footprint h).a hi, exec_withAcc v hi h⟩

end Sys2Proof.Machine
end

section
/-! The family 20_memory.md: the loads and stores (R31 to R37, R41, R90, R109). -/

namespace Sys2Proof.Machine

/-! ## What the eighteen instructions do, said once -/

/-- The end of a load: the destination receives the value that was read, widened. -/
def finishLoad (w : Width) (d : Option Reg) (p : Word × State) : State :=
  p.2.setDest d (widen p.2.cfg.loadExt w p.1)

theorem loadToReg_eq_map (s : State) (w : Width) (x : Reg) (ea : Word) :
    s.loadToReg w x ea = (s.memRead w ea).map (finishLoad w (some x)) := by
  unfold State.loadToReg
  cases s.memRead w ea <;> rfl

theorem loadToAcc_eq_map (s : State) (w : Width) (ea : Word) :
    s.loadToAcc w ea = (s.memRead w ea).map (finishLoad w none) := by
  unfold State.loadToAcc
  cases s.memRead w ea <;> rfl

/-- Each load is one read, then the end of the load. -/
theorem exec_load {s : State} {i : Instr} {w : Width} {d : Option Reg} {ea : Word}
    (h : loadParts s i = some (w, d, ea)) :
    exec i s = retire i.length ((s.memRead w ea).map (finishLoad w d)) := by
  cases i with
  | ldOffL | ldAccL | ldOffB | ldAccB | ldOffW | ldAccW =>
    cases h
    exact congrArg (retire _) (loadToReg_eq_map s _ _ _)
  | ldRegL | ldRegB | ldRegW =>
    cases h
    exact congrArg (retire _) (loadToAcc_eq_map s _ _)
  | _ => nomatch h

/-- Each store is one write. -/
theorem exec_store {s : State} {i : Instr} {w : Width} {ea v : Word}
    (h : storeParts s i = some (w, ea, v)) : exec i s = retire i.length (s.memWrite w ea v) := by
  cases i with
  | stOffL | stAccL | stRegL | stOffB | stAccB | stRegB | stOffW | stAccW | stRegW =>
    cases h
    rfl
  | _ => nomatch h

/-! ## The loads -/

theorem lowBits_lt (w : Width) (v : Word) : (lowBits w v).toNat < 2 ^ (8 * bytesOf w) := by
  rw [lowBits_toNat]
  exact Nat.mod_lt _ (Nat.two_pow_pos _)

/-- Settles O25: the bytes read are the number there, and `widen` meets `Widened`. -/
theorem loadsReadMemory : Obligations.LoadsReadMemory := by
  intro s i w d ea hparts hram
  have hnum := loadBytes_toNat s w ea
  refine ⟨widen s.cfg.loadExt w (s.loadBytes w (align w ea)), ?_, ?_⟩
  · have hspec := widen_spec s.cfg.loadExt w (s.loadBytes w (align w ea)) (hnum ▸ numberAt_lt s w ea)
    rwa [hnum] at hspec
  · rw [exec_load hparts, memRead_ram hram]
    cases d <;> rfl

/-- Settles O26: the low bits of the free value, widened. -/
theorem loadsReadDevices : Obligations.LoadsReadDevices := by
  intro s i w d ea hparts hdevice
  refine ⟨widen s.cfg.loadExt w (lowBits w (Config.deviceInput s.deviceReads)), ?_, ?_⟩
  · rw [← lowBits_toNat]
    exact widen_spec _ w _ (lowBits_lt w _)
  · rw [exec_load hparts, memRead_device hdevice]
    cases d <;> rfl

/-! ## The stores -/

theorem lowBits_eq_ofNat (w : Width) (v : Word) :
    lowBits w v = BitVec.ofNat 32 (v.toNat % 2 ^ (8 * bytesOf w)) := by
  rw [← lowBits_toNat, BitVec.ofNat_toNat, BitVec.setWidth_eq]

/-- Settles O27: the write is `storeBytes`, whose laws give the bytes inside and outside. -/
theorem storesWriteMemory : Obligations.StoresWriteMemory := by
  intro s i w ea v hparts hram
  refine ⟨(s.storeBytes w (alignedBase w ea) v).advance i.length, ?_, fun k hk => ?_, ?_, ?_⟩
  · rw [exec_store hparts, memWrite_ram hram]
    rfl
  · exact storeBytes_byte s w _ v hk
  · exact storeBytes_outside s w _ v
  · rw [storeBytes_eq]
    rfl

/-- Settles O28: the output event holds the low bits of the data register. -/
theorem storesToDevicesAreOutputs : Obligations.StoresToDevicesAreOutputs := by
  intro s i w ea v hparts hdevice
  rw [exec_store hparts, memWrite_device hdevice, lowBits_eq_ofNat]
  rfl

/-- Settles O29: the access stops, and with it the instruction. -/
theorem accessOutsideMemoryFaults : Obligations.AccessOutsideMemoryFaults := by
  refine fun s i => ⟨fun w d ea hparts habsent => ?_, fun w ea v hparts habsent => ?_⟩
  · rw [exec_load hparts, memRead_absent habsent]
    rfl
  · rw [exec_store hparts, memWrite_absent habsent]
    rfl

end Sys2Proof.Machine
end

section
/-! The family 20_memory.md: one access after another (R31 to R34, R43, R49), and stores seen by the fetch
(R30, R47). -/

namespace Sys2Proof.Machine

/-! ## Alignment -/

@[simp] theorem align_idem (w : Width) (a : Word) : align w (align w a) = align w a := by
  rw [align_eq, align_eq, alignedBase_idem]

theorem classAt_align (s : State) (w : Width) (a : Word) : s.classAt w (align w a) = s.classAt w a := by
  unfold State.classAt
  rw [align_idem]

/-- Settles O30: both accesses look at the aligned address alone. -/
theorem misalignedAddressesAreAlignedDown : Obligations.MisalignedAddressesAreAlignedDown := by
  refine fun s w a v => ⟨align_toNat w a, ?_, ?_⟩
  · unfold State.memRead
    rw [classAt_align, align_idem]
  · unfold State.memWrite
    rw [classAt_align, align_idem]

/-! ## Reads after a write -/

/-- A write where the map has memory is `storeBytes`. -/
theorem memWrite_ram_eq {s t : State} {w : Width} {a v : Word} (hram : s.accessClass w a = .ram)
    (h : s.memWrite w a v = .ok t) : t = s.storeBytes w (alignedBase w a) v :=
  Except.ok.inj (h.symm.trans (memWrite_ram hram))

theorem storeBytes_cfg (s : State) (w : Width) (a v : Word) : (s.storeBytes w a v).cfg = s.cfg := by
  rw [storeBytes_eq]

/-- Settles O32: the read gives the number that the write left there. -/
theorem readReturnsTheLatestWrite : Obligations.ReadReturnsTheLatestWrite := by
  intro s t w a v hram h
  obtain rfl := memWrite_ram_eq hram h
  have hram' := (accessClass_congr (storeBytes_cfg s w (alignedBase w a) v) w a).trans hram
  refine ⟨⟨_, memRead_ram hram', ?_⟩, storeBytes_outside s w _ v, storeBytes_eq s w _ v⟩
  rw [loadBytes_toNat, numberAt_storeBytes_same]

/-- An address that is a multiple of the width is aligned already. -/
theorem alignedBase_of_mod {w : Width} {a : Word} (h : a.toNat % bytesOf w = 0) : alignedBase w a = a :=
  BitVec.eq_of_toNat_eq (by rw [alignedBase_toNat, h, Nat.sub_zero])

theorem numberAt_byte (s : State) (a : Word) : s.numberAt .byte a = (s.dataByte a).toNat := by
  unfold State.numberAt
  rw [alignedBase_of_mod (Nat.mod_one _)]

theorem numberAt_word {a : Word} (s : State) (h : a.toNat % 2 = 0) :
    s.numberAt .word a = (s.dataByte a).toNat + 256 * (s.dataByte (a + 1)).toNat := by
  unfold State.numberAt
  rw [alignedBase_of_mod h]

/-- The two halves of a 4-byte number just written. -/
theorem numberAt_word_storeBytes_dword (s : State) (v : Word) {b : Word} (hb : b.toNat % 4 = 0) :
    (s.storeBytes .dword b v).numberAt .word b = v.toNat % 2 ^ 16 ∧
      (s.storeBytes .dword b v).numberAt .word (b + 2) = v.toNat / 2 ^ 16 := by
  have hv := v.isLt
  have h0 : ((s.storeBytes .dword b v).dataByte b).toNat = v.toNat % 2 ^ 8 := by
    simpa using storeBytes_byte s .dword b v (k := 0) (by decide)
  have h1 : ((s.storeBytes .dword b v).dataByte (b + 1)).toNat = v.toNat / 2 ^ 8 % 2 ^ 8 :=
    storeBytes_byte s .dword b v (k := 1) (by decide)
  have h2 : ((s.storeBytes .dword b v).dataByte (b + 2)).toNat = v.toNat / 2 ^ 16 % 2 ^ 8 :=
    storeBytes_byte s .dword b v (k := 2) (by decide)
  have h3 : ((s.storeBytes .dword b v).dataByte (b + 2 + 1)).toNat = v.toNat / 2 ^ 24 % 2 ^ 8 := by
    rw [BitVec.add_assoc]
    exact storeBytes_byte s .dword b v (k := 3) (by decide)
  constructor
  · rw [numberAt_word _ (by omega), h0, h1]
    omega
  · rw [numberAt_word _ (by bv_omega), h2, h3]
    omega

/-- Settles O31: the four bytes are those of the value, and a half is made of two of them. -/
theorem narrowReadsSeeTheBytesOfAWideWrite : Obligations.NarrowReadsSeeTheBytesOfAWideWrite := by
  intro s t a v hram h
  obtain rfl := memWrite_ram_eq hram h
  obtain ⟨hlow, hhigh⟩ := numberAt_word_storeBytes_dword s v (alignedBase_mod .dword a)
  refine ⟨?_, hlow, hhigh, fun k hk => ?_⟩
  · rw [numberAt_storeBytes_same]
    exact Nat.mod_eq_of_lt v.isLt
  · rw [numberAt_byte]
    exact storeBytes_byte s .dword _ v hk

/-! ## Instruction fetch -/

/-- Settles O55: a step keeps the program image and the platform, and those and the byte itself are all
that a fetch looks at. -/
theorem storesAndFetch : Obligations.StoresAndFetch := by
  intro s t a h
  obtain ⟨hcfg, himem, -⟩ := step_platform h
  unfold State.fetch
  rw [hcfg, himem]
  refine ⟨fun horg => ?_, fun horg hclass => ?_, fun horg hclass => ?_⟩
  · rw [horg]
  · rw [horg, hclass]
  · rw [horg]
    cases hk : classify s.cfg.memMap a with
    | ram => exact absurd hk hclass
    | device => rfl
    | absent => rfl

end Sys2Proof.Machine
end

section
/-! The family 20_memory.md: the stack and the interrupt on memory, on devices and where the map has nothing
(R41, R160 to R164, R172, R185). -/

namespace Sys2Proof.Machine

/-! ## One word pushed or popped -/

theorem pushReg_srp (s : State) : s.pushReg .srp = s.pushWord (s.reg .srp) := by
  unfold State.pushReg
  rw [State.reg_moveSp_other _ _ (by decide)]

theorem pushWord_device {s : State} (v : Word)
    (h : s.accessClass .dword (pushedAt (s.reg .sp) 0) = .device) :
    s.pushWord v = .ok
      { (s.setReg .sp (pushedAt (s.reg .sp) 0)) with
        outputs := s.outputs ++ [⟨alignedBase .dword (pushedAt (s.reg .sp) 0), .dword, v⟩] } := by
  rw [pushedAt_zero] at *
  have hclass : (s.moveSp (-4)).accessClass .dword (s.reg .sp + (-4)) = .device := h
  unfold State.pushWord
  rw [State.reg_moveSp_same, memWrite_device hclass]
  rfl

theorem popWord_device {s : State} (h : s.accessClass .dword (s.reg .sp) = .device) :
    s.popWord = .ok (Config.deviceInput s.deviceReads,
      { (s.setReg .sp (s.reg .sp + 4)) with deviceReads := s.deviceReads + 1 }) := by
  unfold State.popWord
  rw [memRead_device h]
  rfl

theorem exec_pushSrp (s : State) : exec .pushSrp s = retire 1 (s.pushWord (s.reg .srp)) :=
  congrArg (retire 1) (pushReg_srp s)

theorem exec_popA (s : State) : exec .popA s = retire 1 (s.popWord.map fun r => r.2.setAcc r.1) := rfl

/-- Settles O36: one word pushed, one word popped. -/
theorem pushSrpAndPopA : Obligations.PushSrpAndPopA := by
  refine fun s m bs => ⟨rfl, rfl, fun hram => ?_, fun hdevice => ?_, fun habsent => ?_, fun hram => ?_,
    fun hdevice => ?_, fun habsent => ?_⟩
  · obtain ⟨t, hpush, hslot, hsame, hframe⟩ := pushWord_ram (s.reg .srp) hram
    refine ⟨t.advance 1, ?_, hslot, hsame, ?_⟩
    · rw [exec_pushSrp, hpush]
      rfl
    · rw [hframe]
      rfl
  · rw [exec_pushSrp, pushWord_device _ hdevice]
    rfl
  · rw [exec_pushSrp, pushWord_absent _ habsent]
    rfl
  · rw [exec_popA, popWord_ram hram]
    rfl
  · rw [exec_popA, popWord_device hdevice]
    rfl
  · rw [exec_popA, popWord_absent habsent]
    rfl

/-! ## The slots that are still to come -/

theorem pushedAt_pushedAt (sp : Word) (j k : Nat) : pushedAt (pushedAt sp j) k = pushedAt sp (j + 1 + k) := by
  unfold pushedAt
  rw [BitVec.sub_sub, ← BitVec.ofNat_add]
  congr 2
  omega

/-- The class of the slot on which the `k`-th push from here lands. -/
def State.pushClass (s : State) (k : Nat) : AddrClass := s.accessClass .dword (pushedAt (s.reg .sp) k)

/-- The class of the `k`-th slot from R14 upwards. -/
def State.popClass (s : State) (k : Nat) : AddrClass := s.accessClass .dword (poppedAt (s.reg .sp) k)

theorem State.popClass_zero (s : State) : s.popClass 0 = s.accessClass .dword (s.reg .sp) := by
  unfold State.popClass
  rw [poppedAt_zero]

theorem PushFrame.cfg {s t : State} (h : PushFrame s t) : t.cfg = s.cfg := by
  rw [h]
  rfl

theorem PopFrame.cfg {s t : State} (h : PopFrame s t) : t.cfg = s.cfg := by rw [h]

/-- The first push uses up the first slot. -/
theorem pushClass_of_pushWord {s t : State} {v : Word} (h : s.pushWord v = .ok t) (k : Nat) :
    t.pushClass k = s.pushClass (k + 1) := by
  obtain ⟨hframe, hsp⟩ := pushWord_frame h
  unfold State.pushClass
  rw [hsp, ← pushedAt_zero, pushedAt_pushedAt, accessClass_congr hframe.cfg, Nat.zero_add, Nat.add_comm]

/-- The pushes of `push R0..Rn` use up the first `n + 1` slots. -/
theorem pushClass_of_pushUpTo {s t : State} {n : Nat} (h : s.pushUpTo n = .ok t) (k : Nat) :
    t.pushClass k = s.pushClass (n + 1 + k) := by
  obtain ⟨hframe, hsp⟩ := pushUpTo_frame h
  unfold State.pushClass
  rw [hsp, pushedAt_pushedAt, accessClass_congr hframe.cfg]

theorem popClass_of_popWord {s t : State} {v : Word} (h : s.popWord = .ok (v, t)) (k : Nat) :
    t.popClass k = s.popClass (k + 1) := by
  obtain ⟨hframe, hsp, -⟩ := popWord_frame h
  unfold State.popClass
  rw [hsp, poppedAt_succ, accessClass_congr hframe.cfg]

/-! ## A sequence stops at its first absent slot -/

/-- A push, and what comes after it, stops where the push stops or where the rest stops. -/
theorem pushWord_bind_absent {α : Type} {s : State} {v : Word} {n : Nat} {rest : State → Res α}
    (hrest : ∀ t, (∃ k, k < n ∧ t.pushClass k = .absent) → rest t = .error .accessOutsideMemory)
    (h : ∃ k, k < n + 1 ∧ s.pushClass k = .absent) :
    (s.pushWord v >>= rest) = .error .accessOutsideMemory := by
  obtain ⟨k, hk, habsent⟩ := h
  by_cases hfirst : s.pushClass 0 = .absent
  · rw [pushWord_absent v hfirst, error_bind]
  · obtain ⟨t, ht⟩ := pushWord_ok v hfirst
    rw [ht, ok_bind]
    cases k with
    | zero => exact absurd habsent hfirst
    | succ k => exact hrest t ⟨k, by omega, (pushClass_of_pushWord ht k).trans habsent⟩

theorem popWord_bind_absent {α : Type} {s : State} {n : Nat} {rest : Word × State → Res α}
    (hrest : ∀ v t, (∃ k, k < n ∧ t.popClass k = .absent) → rest (v, t) = .error .accessOutsideMemory)
    (h : ∃ k, k < n + 1 ∧ s.popClass k = .absent) :
    (s.popWord >>= rest) = .error .accessOutsideMemory := by
  obtain ⟨k, hk, habsent⟩ := h
  by_cases hfirst : s.popClass 0 = .absent
  · rw [popWord_absent (s.popClass_zero.symm.trans hfirst), error_bind]
  · obtain ⟨v, t, ht⟩ := popWord_ok (s.popClass_zero ▸ hfirst)
    rw [ht, ok_bind]
    cases k with
    | zero => exact absurd habsent hfirst
    | succ k => exact hrest v t ⟨k, by omega, (popClass_of_popWord ht k).trans habsent⟩

/-- The pushes of `push R0..Rn`, and what comes after them. -/
theorem pushUpTo_bind_absent {α : Type} {s : State} {m n : Nat} {rest : State → Res α}
    (hrest : ∀ t, (∃ k, k < n ∧ t.pushClass k = .absent) → rest t = .error .accessOutsideMemory)
    (h : ∃ k, k < m + 1 + n ∧ s.pushClass k = .absent) :
    (s.pushUpTo m >>= rest) = .error .accessOutsideMemory := by
  by_cases hfirst : ∃ k, k ≤ m ∧ s.pushClass k = .absent
  · rw [pushUpTo_absent hfirst, error_bind]
  · obtain ⟨t, ht⟩ := pushUpTo_ok (s := s) (n := m) fun k hk he => hfirst ⟨k, hk, he⟩
    rw [ht, ok_bind]
    obtain ⟨k, hk, habsent⟩ := h
    have hlater : m < k := Nat.lt_of_not_le fun hle => hfirst ⟨k, hle, habsent⟩
    refine hrest t ⟨k - (m + 1), by omega, ?_⟩
    rw [pushClass_of_pushUpTo ht, Nat.add_sub_cancel' hlater, habsent]

/-! ## The return from an interrupt, and interrupt entry -/

/-- The return stops at an absent one of its first four slots: pc, CC, A and R14 are popped off them. -/
theorem returnFromInterrupt_absent {s : State} (h : ∃ k, k < 4 ∧ s.popClass k = .absent) :
    s.returnFromInterrupt = .error .accessOutsideMemory := by
  refine popWord_bind_absent (fun newPc t1 h1 => ?_) h
  refine popWord_bind_absent (fun w t2 h2 => ?_) h1
  refine popWord_bind_absent (fun v t3 h3 => ?_) h2
  obtain ⟨k, hk, habsent⟩ := h3
  have hpop : State.popDownFrom { t3 with cc := ccUnpack t3.cfg.ccCodec w, a := v } 14 = _ :=
    popDownFrom_absent (by decide) ⟨k, by simpa using hk, habsent⟩
  exact congrArg (· >>= _) hpop

/-- Interrupt entry is eighteen pushes, and stops at an absent slot of theirs. -/
theorem interruptEntry_absent {s : State} (h : ∃ k, k < 18 ∧ s.pushClass k = .absent) :
    s.interruptEntry = .error .accessOutsideMemory := by
  refine pushUpTo_bind_absent (n := 3) (fun t0 h0 => ?_) h
  refine pushWord_bind_absent (fun t1 h1 => ?_) h0
  refine pushWord_bind_absent (fun t2 h2 => ?_) h1
  refine pushWord_bind_absent (n := 0) (fun t3 h3 => ?_) h2
  obtain ⟨k, hk, -⟩ := h3
  exact absurd hk (Nat.not_lt_zero k)

/-- Interrupt entry moves R14 by the eighteen slots. -/
theorem interruptEntry_sp {s t : State} (h : s.interruptEntry = .ok t) :
    t.reg .sp = pushedAt (s.reg .sp) 17 := by
  obtain ⟨t0, h0, h⟩ := bind_eq_ok.mp h
  obtain ⟨t1, h1, h⟩ := bind_eq_ok.mp h
  obtain ⟨t2, h2, h⟩ := bind_eq_ok.mp h
  obtain ⟨t3, h3, h⟩ := bind_eq_ok.mp h
  cases h
  calc t3.reg .sp = t2.reg .sp + (-4) := (pushWord_frame h3).2
    _ = t1.reg .sp + (-4) + (-4) := by rw [(pushWord_frame h2).2]
    _ = t0.reg .sp + (-4) + (-4) + (-4) := by rw [(pushWord_frame h1).2]
    _ = pushedAt (s.reg .sp) 17 := by
      rw [(pushUpTo_frame h0).2, ← pushedAt_succ, ← pushedAt_succ, ← pushedAt_succ]

/-- Interrupt entry answers a state unless a slot is absent. -/
theorem interruptEntry_ok {s : State} (h : ∀ k, k < 18 → s.pushClass k ≠ .absent) :
    ∃ t, s.interruptEntry = .ok t := by
  obtain ⟨t0, h0⟩ := pushUpTo_ok (s := s) (n := 14) fun k hk => h k (by omega)
  have c0 : ∀ k, t0.pushClass k = s.pushClass (15 + k) := pushClass_of_pushUpTo h0
  obtain ⟨t1, h1⟩ := pushWord_ok t0.a (by rw [← State.pushClass, c0]; exact h 15 (by decide))
  have c1 : ∀ k, t1.pushClass k = s.pushClass (15 + (k + 1)) := fun k =>
    (pushClass_of_pushWord h1 k).trans (c0 (k + 1))
  obtain ⟨t2, h2⟩ := pushWord_ok (ccPack t1.cfg.ccCodec t1.cc) (by
    rw [← State.pushClass, c1]; exact h 16 (by decide))
  obtain ⟨t3, h3⟩ := pushWord_ok t2.pc (by
    rw [← State.pushClass, pushClass_of_pushWord h2, c1]; exact h 17 (by decide))
  exact ⟨_, bind_eq_ok.mpr ⟨t0, h0, bind_eq_ok.mpr ⟨t1, h1, bind_eq_ok.mpr ⟨t2, h2,
    bind_eq_ok.mpr ⟨t3, h3, rfl⟩⟩⟩⟩⟩

/-- Settles O37: the laws of `push R0..Rn`, `pop R0..Rn` and the return. -/
theorem stackNeedsEverySlot : Obligations.StackNeedsEverySlot := by
  refine fun s n => ⟨fun hall => ?_, fun hsome => ?_, fun hn hall => ?_, fun hn hsome => ?_,
    fun hn hsome => ?_, fun hsome => ?_⟩
  · obtain ⟨t, ht⟩ := pushUpTo_ok hall
    exact ⟨t.advance lenT, congrArg (retire lenT) ht, (pushUpTo_frame ht).2⟩
  · exact congrArg (retire lenT) (pushUpTo_absent hsome)
  · obtain ⟨t, ht, hsp⟩ := popDownFrom_ok hn hall
    exact ⟨t.advance lenT, congrArg (retire lenT) ht, hsp⟩
  · exact congrArg (retire lenT) (popDownFrom_absent n.isLt (by rwa [if_pos hn]))
  · exact congrArg (retire lenT) (popDownFrom_absent n.isLt (by rwa [if_neg (Nat.not_lt.mpr hn)]))
  · exact congrArg outcome (returnFromInterrupt_absent hsome)

/-- A step that takes the interrupt is interrupt entry, with the request used up. -/
theorem step_of_request {s : State} (hie : s.ie = true) (hirq : s.irq.head? = some true) :
    step s = outcome s.passBoundary.interruptEntry := by
  unfold step
  rw [if_pos (takesInterrupt_of_request hie hirq)]

/-- Settles O41: interrupt entry is pushes, whose frame gives the state that it answers. -/
theorem interruptEntryNeedsEverySlot : Obligations.InterruptEntryNeedsEverySlot := by
  intro s sp hie hirq
  rw [step_of_request hie hirq]
  refine ⟨fun hall => ?_, fun hsome => ?_⟩
  · obtain ⟨t, ht⟩ := interruptEntry_ok (s := s.passBoundary) hall
    have hsp := interruptEntry_sp ht
    obtain ⟨u, hu, rfl⟩ := interruptEntry_frame ht
    refine ⟨_, congrArg outcome ht, ?_, rfl, hsp, fun k hk => hu.reg hk, ?_, ?_⟩
    all_goals
      rw [hu]
      rfl
  · exact congrArg outcome (interruptEntry_absent (s := s.passBoundary) hsome)

end Sys2Proof.Machine
end

section
/-! The family 20_memory.md: the bytes of an instruction, fetched and decoded (R38, R63, R181); before it,
what the decoder makes of an encoding and of a beginning of one (R52 to R65). -/

namespace Sys2Proof

/-! ## Bytes that follow do not change the decoder's answer -/

/-- The answer to a list of bytes, with more bytes after it. -/
def withMore {α : Type} (more : List Byte) (r : Except DecodeError (α × List Byte)) :
    Except DecodeError (α × List Byte) :=
  r.map fun p => (p.1, p.2 ++ more)

/-- Unless the bytes end inside the immediate, the bytes after them are left over. -/
theorem decodeImm_append {m : Imm5Mode} {bs : List Byte} (more : List Byte)
    (h : decodeImm m bs ≠ .error .truncated) :
    decodeImm m (bs ++ more) = withMore more (decodeImm m bs) := by
  fun_cases decodeImm m bs
  case case1 | case2 | case3 | case4 | case5 => simp [decodeImm, *] at h
  all_goals simp [decodeImm, withMore, Except.map, *]

theorem withImm_append {m : Imm5Mode} {mk : Imm → Instr} {bs : List Byte} (more : List Byte)
    (h : withImm m mk bs ≠ .error .truncated) :
    withImm m mk (bs ++ more) = withMore more (withImm m mk bs) := by
  have himm : decodeImm m bs ≠ .error .truncated := fun he => h (by unfold withImm; rw [he])
  unfold withImm
  rw [decodeImm_append more himm]
  cases decodeImm m bs <;> rfl

theorem thirdLevel_append {m : Imm5Mode} {b1 : Byte} {bs : List Byte} (more : List Byte)
    (h : thirdLevel m b1 bs ≠ .error .truncated) :
    thirdLevel m b1 (bs ++ more) = withMore more (thirdLevel m b1 bs) := by
  unfold thirdLevel at *
  split at h
  case h_3 | h_6 | h_11 | h_14 => exact withImm_append more h
  all_goals rfl

theorem secondLevel_append {m : Imm5Mode} {f : BitVec 4} {bs : List Byte} (more : List Byte)
    (h : secondLevel m f bs ≠ .error .truncated) :
    secondLevel m f (bs ++ more) = withMore more (secondLevel m f bs) := by
  unfold secondLevel at *
  split at h
  case h_5 | h_6 =>
    cases bs with
    | nil => exact absurd rfl h
    | cons b1 t => rfl
  case h_9 =>
    cases bs with
    | nil => exact absurd rfl h
    | cons b1 t => exact thirdLevel_append more h
  all_goals rfl

theorem decode_append {m : Imm5Mode} {bs : List Byte} (more : List Byte)
    (h : decode m bs ≠ .error .truncated) : decode m (bs ++ more) = withMore more (decode m bs) := by
  cases bs with
  | nil => exact absurd rfl h
  | cons b0 t =>
    simp only [List.cons_append, decode] at *
    split at h
    case h_3 | h_6 | h_9 | h_11 => exact withImm_append more h
    case h_16 => exact secondLevel_append more h
    all_goals rfl

/-! ## The encoder's bytes -/

theorem fourthLevel_reserved {o : BitVec 4} (h : 2 ≤ o.toNat) : fourthLevel o = .resFourth o := by
  unfold fourthLevel
  split
  case h_3 => rfl
  all_goals omega

theorem decode_encode (m : Imm5Mode) (i : Instr) (rest : List Byte) (h : i.wf = true) :
    decode m (encode m i ++ rest) = .ok (i, rest) := by
  cases i with
  | rxFromA | aFromRx | ldAccL | ldRegL | stAccL | stRegL | addA | subA | andA | orA =>
    simp [encode, encF1, decode]
  | aImm => simp [encode, decode]
  | ldOffL | stOffL | rxImm => simp [encode, encF1I, decode, withImm_encodeImm _ _ _ _ h]
  | j | jlt | jge | jlo | jhs | jz | jnz | jloB | jhsB | jzB | jnzB | jloW | jhsW | jzW | jnzW | jsr =>
    simp [encode, encJ, decode, withImm_encodeImm _ _ _ _ h, jumpOf]
  | notA | lslA | lsrA | asrA | pushSrp | popA | reti | maskbA | maskwA | sexbA | sexwA | jA
  | resSecond15 => simp [encode, encS, decode, secondLevel]
  | pushR | popR => simp [encode, encT, decode, secondLevel, pushList, popList]
  | adcA | ldAccB | ldRegB | stAccB | stRegB | xorA | ldAccW | ldRegW | stAccW | stRegW | resThird1 =>
    simp [encode, encT, decode, secondLevel, thirdLevel]
  | ei | di => simp [encode, encT, decode, secondLevel, thirdLevel, fourthLevel]
  | ldOffB | stOffB | ldOffW | stOffW =>
    simp [encode, encTI, decode, secondLevel, thirdLevel, withImm_encodeImm _ _ _ _ h]
  | resFourth =>
    simp [encode, encT, decode, secondLevel, thirdLevel, fourthLevel_reserved (of_decide_eq_true h)]
  | resPush hi | resPop hi =>
    have hne : ¬ hi = 0#4 := of_decide_eq_true h
    simp [encode, encT, decode, secondLevel, pushList, popList, hne]

/-- The encoding of a well-formed instruction has as many bytes as its length says (R50, R63). -/
theorem encode_length (m : Imm5Mode) (i : Instr) (h : i.wf = true) : (encode m i).length = i.length := by
  cases i with
  | ldOffL _ imm | stOffL _ imm | rxImm _ imm | j imm | jlt imm | jge imm | jlo imm | jhs imm | jz imm
  | jnz imm | jloB imm | jhsB imm | jzB imm | jnzB imm | jloW imm | jhsW imm | jzW imm | jnzW imm
  | jsr imm => exact Laws.Length.oneByte m imm h
  | ldOffB _ imm | stOffB _ imm | ldOffW _ imm | stOffW _ imm => exact Laws.Length.twoByte m imm h
  | _ => rfl

theorem length_le_seven (i : Instr) (h : i.wf = true) : i.length ≤ 7 := by
  have hsize : ∀ imm : Imm, imm.wf = true → imm.size ≤ 5 := fun imm himm =>
    (encodeImm_length .last4 imm himm).2.2
  cases i with
  | ldOffL _ imm | stOffL _ imm | rxImm _ imm | j imm | jlt imm | jge imm | jlo imm | jhs imm | jz imm
  | jnz imm | jloB imm | jhsB imm | jzB imm | jnzB imm | jloW imm | jhsW imm | jzW imm | jnzW imm
  | jsr imm => exact Nat.le_trans (Nat.add_le_add_left (hsize imm h) 1) (by decide)
  | ldOffB _ imm | stOffB _ imm | ldOffW _ imm | stOffW _ imm =>
    exact Nat.add_le_add_left (hsize imm h) 2
  | _ => exact of_decide_eq_true rfl

/-- A proper beginning of an encoding ends inside the instruction: were it an instruction, or malformed, so
would the whole encoding be, and with bytes left over. -/
theorem decode_take_encode (m : Imm5Mode) (i : Instr) {k : Nat} (h : i.wf = true)
    (hk : k < (encode m i).length) : decode m ((encode m i).take k) = .error .truncated := by
  by_contra hne
  have happend := decode_append ((encode m i).drop k) hne
  have hwhole := decode_encode m i [] h
  rw [List.append_nil] at hwhole
  rw [List.take_append_drop, hwhole] at happend
  cases hd : decode m ((encode m i).take k) with
  | error e =>
    rw [hd] at happend
    nomatch happend
  | ok p =>
    rw [hd] at happend
    have hrest : [] = p.2 ++ (encode m i).drop k := congrArg Prod.snd (Except.ok.inj happend)
    have hnil := List.drop_eq_nil_iff.mp (List.append_eq_nil_iff.mp hrest.symm).2
    omega

end Sys2Proof

namespace Sys2Proof.Machine

/-! ## The bytes at pc -/

/-- Where the bytes of a list can be fetched, they are the first that the fetch gives. -/
theorem fetchBytes_append {s : State} {addr : Word} {n : Nat} {bs : List Byte}
    (h : ∀ (k : Nat) (b : Byte), bs[k]? = some b → s.fetch (addr + BitVec.ofNat 32 k) = some b) :
    s.fetchBytes (bs.length + n) addr = bs ++ s.fetchBytes n (addr + BitVec.ofNat 32 bs.length) := by
  induction bs generalizing addr with
  | nil => simp
  | cons b bs ih =>
    have hnext : ∀ k : Nat, addr + BitVec.ofNat 32 (k + 1) = addr + 1 + BitVec.ofNat 32 k := fun k => by
      rw [Nat.add_comm, BitVec.ofNat_add, ← BitVec.add_assoc]
      rfl
    have hb : s.fetch addr = some b := by simpa using h 0 b rfl
    have htail := ih (addr := addr + 1) fun k c hc => hnext k ▸ h (k + 1) c hc
    rw [List.length_cons, hnext, Nat.add_right_comm, List.cons_append, ← htail, State.fetchBytes, hb]

theorem fetchBytes_none {s : State} {addr : Word} (n : Nat) (h : s.fetch addr = none) :
    s.fetchBytes n addr = [] := by
  cases n with
  | zero => rfl
  | succ n => rw [State.fetchBytes, h]

/-- The instruction whose bytes stand at pc is the one fetched. -/
theorem fetchInstr_of_encode {s : State} {i : Instr} (hwf : i.wf = true)
    (h : ∀ (k : Nat) (b : Byte), (encode s.cfg.imm5 i)[k]? = some b →
      s.fetch (s.pc + BitVec.ofNat 32 k) = some b) :
    s.fetchInstr = .ok i := by
  have hlen := encode_length s.cfg.imm5 i hwf
  have hbytes := fetchBytes_append (n := 7 - i.length) h
  rw [hlen, Nat.add_sub_cancel' (length_le_seven i hwf)] at hbytes
  unfold State.fetchInstr
  rw [hbytes, decode_encode _ _ _ hwf]

/-- Where the bytes at pc end inside an instruction, the fetch stops. -/
theorem fetchInstr_of_missing {s : State} {i : Instr} {k : Nat} (hwf : i.wf = true) (hk : k < i.length)
    (h : ∀ (j : Nat) (b : Byte), j < k → (encode s.cfg.imm5 i)[j]? = some b →
      s.fetch (s.pc + BitVec.ofNat 32 j) = some b)
    (hnone : s.fetch (s.pc + BitVec.ofNat 32 k) = none) :
    s.fetchInstr = .error .fetchOutsideMemory := by
  rw [← encode_length s.cfg.imm5 i hwf] at hk
  have hlen : ((encode s.cfg.imm5 i).take k).length = k := List.length_take_of_le hk.le
  have hseven : k ≤ 7 :=
    hk.le.trans ((encode_length s.cfg.imm5 i hwf).le.trans (length_le_seven i hwf))
  have hbytes := fetchBytes_append (s := s) (addr := s.pc) (n := 7 - k) (bs := (encode s.cfg.imm5 i).take k)
    fun j b hj => by
      rw [List.getElem?_take] at hj
      split at hj
      · next hjk => exact h j b hjk hj
      · nomatch hj
  rw [hlen, Nat.add_sub_cancel' hseven, fetchBytes_none _ hnone, List.append_nil] at hbytes
  unfold State.fetchInstr
  rw [hbytes, decode_take_encode _ _ hwf hk]

/-! ## The step -/

theorem takesInterrupt_of_noRequest {s : State} (h : s.ie = false ∨ s.irq.head? ≠ some true) :
    s.takesInterrupt = false := by
  unfold State.takesInterrupt State.irqNow
  obtain hie | hirq := h
  · rw [hie, Bool.false_and]
  · rw [List.headD_eq_head?_getD]
    cases hhead : s.irq.head? with
    | none => exact Bool.and_false _
    | some b =>
      cases b with
      | false => exact Bool.and_false _
      | true => exact absurd hhead hirq

/-- A step at which no interrupt is taken executes the instruction it fetches. -/
theorem step_of_fetchInstr {s : State} {i : Instr} (hno : s.ie = false ∨ s.irq.head? ≠ some true)
    (hfetch : s.fetchInstr = .ok i) : step s = exec i s.passBoundary := by
  unfold step
  rw [takesInterrupt_of_noRequest hno, hfetch]
  rfl

/-- A step at which no interrupt is taken stops where its fetch stops. -/
theorem step_of_fetchInstr_error {s : State} {f : Fault} (hno : s.ie = false ∨ s.irq.head? ≠ some true)
    (hfetch : s.fetchInstr = .error f) : step s = .fault f := by
  unfold step
  rw [takesInterrupt_of_noRequest hno, hfetch]
  rfl

/-- Settles O10: what is fetched is the instruction encoded there. -/
theorem fetchedEncodingIsExecuted : Obligations.FetchedEncodingIsExecuted :=
  fun _ _ hno hwf hbytes => step_of_fetchInstr hno (fetchInstr_of_encode hwf hbytes)

/-- Settles O11: the bytes before the missing one are a beginning of an encoding and decide nothing. -/
theorem missingInstructionByteFaults : Obligations.MissingInstructionByteFaults :=
  fun _ _ _ hno hwf hk hbytes hnone =>
    step_of_fetchInstr_error hno (fetchInstr_of_missing hwf hk hbytes hnone)

end Sys2Proof.Machine
end

section
/-! The family 30_encoding.md: what the decoder answers, immediates as numbers, and the encodings that stop
the step (R50 to R66). -/

namespace Sys2Proof

/-! ## Opcode bytes -/

theorem msn_toNat (b : Byte) : (msn b).toNat = b.toNat / 16 := by
  revert b
  decide

/-- A byte put together again from the number of its high nibble. -/
theorem opByte_of_msn {b : Byte} {k : Nat} (h : (msn b).toNat = k) : opByte (BitVec.ofNat 4 k) (lsn b) = b := by
  rw [← h, BitVec.ofNat_toNat, BitVec.setWidth_eq, opByte_fields]

theorem ofNat_eq_opByte (hi : BitVec 4) (x : Reg) :
    BitVec.ofNat 8 (16 * hi.toNat + x.val) = opByte hi (regNib x) := by
  revert hi x
  decide

/-! ## Lengths -/

theorem one_le_length (i : Instr) : 1 ≤ i.length := by
  cases i <;> simp only [Instr.length, lenF1, lenT, lenF1I, lenTI] <;> omega

/-- Settles O1, by the round trip of each constructor's bytes. -/
theorem decodeOfEncodeIsIdentity : Obligations.DecodeOfEncodeIsIdentity := decode_encode

/-- Settles O4: the longest rows are two opcode bytes and five immediate bytes. -/
theorem encodedLengthIsOneToSeven : Obligations.EncodedLengthIsOneToSeven := fun m i h =>
  ⟨encode_length m i h, one_le_length i, length_le_seven i h⟩

/-! ## What the decoder has read -/

/-- `used` are the bytes an answer `i` has consumed: its length of them and, but for bits 6:4 of the first
byte of a five-byte immediate under shift7, those the encoder writes (R60). -/
structure ReadFrom (m : Imm5Mode) (i : Instr) (used : List Byte) : Prop where
  wf        : i.wf = true
  length_eq : used.length = i.length
  eq_encode : m = .last4 ∨ i.length < 6 → used = encode m i

/-- A row without an immediate is read from the encoder's bytes. -/
theorem readFrom_opcode {m : Imm5Mode} {op t rest : List Byte} {i j : Instr}
    (h : (.ok (j, t) : Except DecodeError (Instr × List Byte)) = .ok (i, rest)) (hwf : j.wf = true)
    (henc : encode m j = op) : ∃ used, op ++ t = used ++ rest ∧ ReadFrom m i used := by
  cases h
  exact ⟨op, rfl, hwf, by rw [← henc, encode_length m _ hwf], fun _ => henc.symm⟩

/-- A row that ends with an immediate is read from its opcode bytes and the immediate's. -/
theorem readFrom_withImm {m : Imm5Mode} {mk : Imm → Instr} {b : Byte} {op t rest : List Byte} {i : Instr}
    (h : withImm m mk t = .ok (i, rest)) (hwf : ∀ imm, (mk imm).wf = imm.wf)
    (henc : ∀ imm, encode m (mk imm) = b :: op ++ encodeImm m imm) :
    ∃ used, b :: op ++ t = used ++ rest ∧ ReadFrom m i used := by
  obtain ⟨imm, rfl, himm, used, rfl, hused, huniq⟩ := withImm_cases h
  have hwf' := (hwf imm).trans himm
  have hlen : (mk imm).length = op.length + 1 + imm.size := by
    rw [← encode_length m _ hwf', henc, List.length_append, List.length_cons, (encodeImm_length m imm himm).1]
  refine ⟨b :: op ++ used, by simp, hwf', by simp [hlen, hused, Nat.add_right_comm], fun hm => ?_⟩
  rw [henc, huniq (hm.imp_right fun h6 => by omega)]

theorem jumpOf_wf (f : BitVec 4) (imm : Imm) : (jumpOf f imm).wf = imm.wf := by
  unfold jumpOf
  split <;> rfl

theorem encode_jumpOf (m : Imm5Mode) (f : BitVec 4) (imm : Imm) : encode m (jumpOf f imm) = encJ m f imm := by
  obtain ⟨f⟩ := f
  fin_cases f <;> rfl

theorem fourthLevel_readable (m : Imm5Mode) (o : BitVec 4) :
    (fourthLevel o).wf = true ∧ encode m (fourthLevel o) = encT 8 8 o := by
  revert o
  cases m <;> decide

theorem pushList_readable (m : Imm5Mode) (b : Byte) :
    (pushList b).wf = true ∧ encode m (pushList b) = [opByte 15 4, b] := by
  revert b
  cases m <;> decide

theorem popList_readable (m : Imm5Mode) (b : Byte) :
    (popList b).wf = true ∧ encode m (popList b) = [opByte 15 5, b] := by
  revert b
  cases m <;> decide

theorem thirdLevel_readFrom {m : Imm5Mode} {b1 : Byte} {t rest : List Byte} {i : Instr}
    (h : thirdLevel m b1 t = .ok (i, rest)) :
    ∃ used, [opByte 15 8, b1] ++ t = used ++ rest ∧ ReadFrom m i used := by
  have hlt := (msn b1).isLt
  unfold thirdLevel at h
  generalize hop : (msn b1).toNat = op at h hlt
  have hb : opByte (BitVec.ofNat 4 op) (lsn b1) = b1 := opByte_of_msn hop
  split at h
  case h_3 | h_6 | h_11 | h_14 =>
    exact readFrom_withImm h (fun _ => rfl) fun imm => congrArg (opByte 15 8 :: · :: encodeImm m imm) hb
  case h_9 =>
    obtain ⟨hwf, henc⟩ := fourthLevel_readable m (lsn b1)
    exact readFrom_opcode h hwf (henc.trans (congrArg (opByte 15 8 :: [·]) hb))
  case h_16 =>
    obtain rfl : op = 15 := by simp only [imp_false] at *; omega
    exact readFrom_opcode h rfl (congrArg (opByte 15 8 :: [·]) hb)
  all_goals exact readFrom_opcode h rfl (congrArg (opByte 15 8 :: [·]) hb)

theorem secondLevel_readFrom {m : Imm5Mode} {f : BitVec 4} {t rest : List Byte} {i : Instr}
    (h : secondLevel m f t = .ok (i, rest)) :
    ∃ used, opByte 15 f :: t = used ++ rest ∧ ReadFrom m i used := by
  have hlt := f.isLt
  have hf : BitVec.ofNat 4 f.toNat = f := by simp
  unfold secondLevel at h
  generalize f.toNat = op at h hlt hf
  subst hf
  split at h
  case h_5 =>
    cases t with
    | nil => nomatch h
    | cons b1 t =>
      obtain ⟨hwf, henc⟩ := pushList_readable m b1
      exact readFrom_opcode h hwf henc
  case h_6 =>
    cases t with
    | nil => nomatch h
    | cons b1 t =>
      obtain ⟨hwf, henc⟩ := popList_readable m b1
      exact readFrom_opcode h hwf henc
  case h_9 =>
    cases t with
    | nil => nomatch h
    | cons b1 t => exact thirdLevel_readFrom h
  case h_16 =>
    obtain rfl : op = 15 := by simp only [imp_false] at *; omega
    exact readFrom_opcode h rfl rfl
  all_goals exact readFrom_opcode h rfl rfl

/-- What the decoder answers was read from the bytes before the rest. -/
theorem decode_readFrom {m : Imm5Mode} {bs rest : List Byte} {i : Instr} (h : decode m bs = .ok (i, rest)) :
    ∃ used, bs = used ++ rest ∧ ReadFrom m i used := by
  cases bs with
  | nil => nomatch h
  | cons b0 t =>
    have hlt := (msn b0).isLt
    rw [decode] at h
    generalize hop : (msn b0).toNat = op at h hlt
    have hb : opByte (BitVec.ofNat 4 op) (lsn b0) = b0 := opByte_of_msn hop
    split at h
    case h_3 | h_6 | h_9 =>
      exact readFrom_withImm (op := []) h (fun _ => rfl) fun imm => congrArg (· :: encodeImm m imm) hb
    case h_11 =>
      exact readFrom_withImm (op := []) h (jumpOf_wf _) fun imm =>
        (encode_jumpOf m _ imm).trans (congrArg (· :: encodeImm m imm) hb)
    case h_16 =>
      obtain rfl : op = 15 := by simp only [imp_false] at *; omega
      exact hb ▸ secondLevel_readFrom h
    all_goals exact readFrom_opcode h rfl (congrArg ([·]) hb)

/-- Settles O2, from the bytes each level of the decoder has read. -/
theorem decodedInstructionIsWellFormed : Obligations.DecodedInstructionIsWellFormed := fun _ _ _ _ h => by
  obtain ⟨used, hbs, hread⟩ := decode_readFrom h
  exact ⟨hread.wf, used, hbs, hread.length_eq⟩

/-- Settles O3: the bytes read are the encoder's. -/
theorem encodingIsUnique : Obligations.EncodingIsUnique := fun _ _ _ _ h hm => by
  obtain ⟨used, hbs, hread⟩ := decode_readFrom h
  rw [hbs, hread.eq_encode hm]

/-! ## Where the bytes end too early -/

theorem imm5Value_ne_truncated {m : Imm5Mode} {b1 b2 b3 b4 b5 : Byte} :
    imm5Value m b1 b2 b3 b4 b5 ≠ .error .truncated := by
  fun_cases imm5Value m b1 b2 b3 b4 b5 <;> nofun

theorem decodeImm_truncated {m : Imm5Mode} {bs : List Byte} (h : decodeImm m bs = .error .truncated) :
    bs.length < 5 := by
  revert h
  fun_cases decodeImm m bs
  case case1 | case2 | case3 | case4 | case5 => simp
  case case7 e he => exact fun h => absurd (Except.error.inj h ▸ he) imm5Value_ne_truncated
  all_goals nofun

theorem withImm_truncated {m : Imm5Mode} {mk : Imm → Instr} {bs : List Byte}
    (h : withImm m mk bs = .error .truncated) : bs.length < 5 := by
  unfold withImm at h
  split at h
  · nomatch h
  · next he => exact decodeImm_truncated (he.trans (by simpa using h))

theorem thirdLevel_truncated {m : Imm5Mode} {b1 : Byte} {bs : List Byte}
    (h : thirdLevel m b1 bs = .error .truncated) : bs.length < 5 := by
  unfold thirdLevel at h
  split at h
  case h_3 | h_6 | h_11 | h_14 => exact withImm_truncated h
  all_goals nomatch h

theorem secondLevel_truncated {m : Imm5Mode} {f : BitVec 4} {bs : List Byte}
    (h : secondLevel m f bs = .error .truncated) : bs.length < 6 := by
  cases bs with
  | nil => exact Nat.zero_lt_succ _
  | cons b1 t =>
    unfold secondLevel at h
    split at h
    case h_9 => exact Nat.succ_lt_succ (thirdLevel_truncated h)
    all_goals nomatch h

theorem decode_truncated {m : Imm5Mode} {bs : List Byte} (h : decode m bs = .error .truncated) :
    bs.length < 7 := by
  cases bs with
  | nil => exact Nat.zero_lt_succ _
  | cons b0 t =>
    rw [decode] at h
    split at h
    case h_3 | h_6 | h_9 | h_11 => exact Nat.lt_succ_of_lt (Nat.succ_lt_succ (withImm_truncated h))
    case h_16 => exact Nat.succ_lt_succ (secondLevel_truncated h)
    all_goals nomatch h

/-- Settles O5: seven bytes are never too few, and then further bytes are only left over. -/
theorem sevenBytesDecideTheInstruction : Obligations.SevenBytesDecideTheInstruction := fun m bs more hlen => by
  have hne : decode m bs ≠ .error .truncated := fun h => absurd (decode_truncated h) (by omega)
  refine ⟨hne, fun i rest h => ?_, fun e h => ?_⟩
  all_goals
    rw [decode_append more hne, h]
    rfl

end Sys2Proof

namespace Sys2Proof.Machine

/-! ## Immediates as numbers -/

theorem lsn_toNat (b : Byte) : (lsn b).toNat = b.toNat % 16 := by
  revert b
  decide

theorem low7_toNat (b : Byte) : (low7 b).toNat = b.toNat % 128 := by
  revert b
  decide

/-- An immediate byte with bit 7 set, from the number of its seven value bits (R59). -/
theorem ofNat_eq_moreByte (g : BitVec 7) : BitVec.ofNat 8 (128 + g.toNat) = moreByte g := by
  revert g
  decide

theorem ofNat_eq_lastByte (g : BitVec 7) : BitVec.ofNat 8 g.toNat = lastByte g := by
  revert g
  decide

theorem toInt_signExtend_word {k : Nat} (hk : k ≤ 32) (x : BitVec k) :
    (x.signExtend 32).toInt = (x.toNat : Int).bmod (2 ^ k) := by
  rw [BitVec.toInt_signExtend_of_le hk, BitVec.toInt_eq_toNat_bmod]

/-- Settles O6: the bits decoded are the groups side by side. -/
theorem immediateGroupsAreMostSignificantFirst : Obligations.ImmediateGroupsAreMostSignificantFirst := by
  intro m g1 g2 g3 g4 rest
  simp only [ofNat_eq_moreByte, ofNat_eq_lastByte]
  refine ⟨⟨g1.signExtend 32, by simp [decodeImm], ?_⟩,
    ⟨(g1 ++ g2).signExtend 32, by simp [decodeImm], ?_⟩,
    ⟨(g1 ++ g2 ++ g3).signExtend 32, by simp [decodeImm], ?_⟩,
    ⟨(g1 ++ g2 ++ g3 ++ g4).signExtend 32, by simp [decodeImm], ?_⟩⟩
  · exact toInt_signExtend_word (by decide) g1
  all_goals
    rw [toInt_signExtend_word (by decide)]
    simp only [toNat_append]
    push_cast
    rfl

/-! ## The fifth immediate byte -/

theorem continues_iff (b : Byte) : continues b = true ↔ 128 ≤ b.toNat := by
  revert b
  decide

theorem highBits_eq_zero_iff (b : Byte) : b.extractLsb' 4 3 = 0 ↔ b.toNat % 128 < 16 := by
  revert b
  decide

theorem decodeImm_five {b1 b2 b3 b4 : Byte} (m : Imm5Mode) (b5 : Byte) (t : List Byte)
    (h1 : continues b1 = true) (h2 : continues b2 = true) (h3 : continues b3 = true)
    (h4 : continues b4 = true) :
    decodeImm m (b1 :: b2 :: b3 :: b4 :: b5 :: t) =
      (imm5Value m b1 b2 b3 b4 b5).map fun v => (⟨5, v⟩, t) := by
  simp only [decodeImm, h1, h2, h3, h4, if_true]
  cases imm5Value m b1 b2 b3 b4 b5 <;> rfl

theorem imm5Value_continues {b5 : Byte} (m : Imm5Mode) (b1 b2 b3 b4 : Byte) (h : 128 ≤ b5.toNat) :
    imm5Value m b1 b2 b3 b4 b5 = .error .fifthByteContinues :=
  if_pos ((continues_iff b5).mpr h)

theorem imm5Value_last4_high {b5 : Byte} (b1 b2 b3 b4 : Byte) (h : 16 ≤ b5.toNat)
    (h' : b5.toNat < 128) : imm5Value .last4 b1 b2 b3 b4 b5 = .error .fifthByteHighBits := by
  have hc : ¬ continues b5 = true := mt (continues_iff b5).mp (by omega)
  have hhigh : ¬ b5.extractLsb' 4 3 = 0 := mt (highBits_eq_zero_iff b5).mp (by omega)
  rw [imm5Value, if_neg hc, if_neg hhigh]

theorem imm5Value_last4 {b5 : Byte} (b1 b2 b3 b4 : Byte) (h : b5.toNat < 16) :
    imm5Value .last4 b1 b2 b3 b4 b5 = .ok (low7 b1 ++ low7 b2 ++ low7 b3 ++ low7 b4 ++ lsn b5) := by
  have hc : ¬ continues b5 = true := mt (continues_iff b5).mp (by omega)
  have hlow : b5.extractLsb' 4 3 = 0 := (highBits_eq_zero_iff b5).mpr (by omega)
  rw [imm5Value, if_neg hc, if_pos hlow]

theorem imm5Value_shift7 {b5 : Byte} (b1 b2 b3 b4 : Byte) (h : b5.toNat < 128) :
    imm5Value .shift7 b1 b2 b3 b4 b5 = .ok (lsn b1 ++ low7 b2 ++ low7 b3 ++ low7 b4 ++ low7 b5) :=
  if_neg (mt (continues_iff b5).mp (by omega))

/-- Settles O7: the four continued bytes are read alike, and the fifth byte decides. -/
theorem fiveByteImmediateReadings : Obligations.FiveByteImmediateReadings := by
  intro g1 g2 g3 g4 b5 rest
  simp only [ofNat_eq_moreByte]
  have hfive (m : Imm5Mode) := decodeImm_five m b5 rest (continues_moreByte g1) (continues_moreByte g2)
    (continues_moreByte g3) (continues_moreByte g4)
  simp only [hfive]
  refine ⟨fun h => ⟨_, by rw [imm5Value_last4 _ _ _ _ h]; rfl, ?_⟩,
    fun h => ⟨_, by rw [imm5Value_shift7 _ _ _ _ h]; rfl, ?_⟩,
    fun h h' => by rw [imm5Value_last4_high _ _ _ _ h h']; rfl,
    fun m h => by rw [imm5Value_continues _ _ _ _ _ h]; rfl⟩
  · simp only [toNat_append, low7_moreByte, lsn_toNat]
    omega
  · simp only [toNat_append, low7_toNat, lsn_toNat, ← ofNat_eq_moreByte, BitVec.toNat_ofNat]
    omega

/-! ## Encodings that stop the step -/

theorem msn_ne_zero {b : Byte} (h : b.toNat / 16 ≠ 0) : msn b ≠ 0 := fun h0 =>
  h ((msn_toNat b).symm.trans (congrArg BitVec.toNat h0))

/-- A step at which no interrupt is taken executes the instruction whose two bytes stand at pc. -/
theorem step_of_two_bytes {s : State} {i : Instr} {b0 b1 : Byte}
    (hno : s.ie = false ∨ s.irq.head? ≠ some true) (h0 : s.fetch s.pc = some b0)
    (h1 : s.fetch (s.pc + 1) = some b1) (hwf : i.wf = true) (henc : ∀ m, encode m i = [b0, b1]) :
    step s = exec i s.passBoundary :=
  fetchedEncodingIsExecuted s i hno hwf fun k b hk => by
    rw [henc] at hk
    match k, hk with
    | 0, rfl => exact (congrArg s.fetch (BitVec.add_zero s.pc)).trans h0
    | 1, rfl => exact h1

/-- Settles O12: each of these bytes is the encoding of a reserved row, and its exec is the fault. -/
theorem reservedEncodingsFault : Obligations.ReservedEncodingsFault := by
  intro s b0 b1 hno h0
  refine ⟨?_, fun h1 => ⟨?_, ?_, ?_, ?_⟩⟩
  · rintro rfl
    exact fetchedEncodingIsExecuted s .resSecond15 hno rfl fun
      | 0, _, rfl => (congrArg s.fetch (BitVec.add_zero s.pc)).trans h0
  · rintro rfl hb
    have hbyte : opByte 1 (lsn b1) = b1 := opByte_of_msn (k := 1) ((msn_toNat b1).trans hb)
    exact step_of_two_bytes (i := .resThird1 (lsn b1)) hno h0 h1 rfl fun _ => congrArg (0xF8 :: [·]) hbyte
  · rintro rfl hlo hhi
    have hbyte : opByte 8 (lsn b1) = b1 := opByte_of_msn (k := 8) ((msn_toNat b1).trans (by omega))
    have hwf : 2 ≤ (lsn b1).toNat := by
      rw [lsn_toNat]
      omega
    exact step_of_two_bytes (i := .resFourth (lsn b1)) hno h0 h1 (decide_eq_true hwf) fun _ =>
      congrArg (0xF8 :: [·]) hbyte
  · rintro rfl hb
    exact step_of_two_bytes (i := .resPush (msn b1) (lsn b1)) hno h0 h1 (decide_eq_true (msn_ne_zero hb))
      fun _ => congrArg (0xF4 :: [·]) (opByte_fields b1)
  · rintro rfl hb
    exact step_of_two_bytes (i := .resPop (msn b1) (lsn b1)) hno h0 h1 (decide_eq_true (msn_ne_zero hb))
      fun _ => congrArg (0xF5 :: [·]) (opByte_fields b1)

/-- Settles O13: the five arms answer their fault and look at no state. -/
theorem reservedRowsStop : Obligations.ReservedRowsStop := fun _ _ _ => ⟨rfl, rfl, rfl, rfl, rfl⟩

/-! ## Malformed immediates -/

/-- `op` is a row's opcode bytes, and the row ends with an immediate. -/
def TakesImm (op : List Byte) : Prop := ∃ mk, ∀ m t, decode m (op ++ t) = withImm m mk t

theorem takesImm_one {x : Byte}
    (h : x.toNat / 16 = 2 ∨ x.toNat / 16 = 5 ∨ x.toNat / 16 = 8 ∨ x.toNat / 16 = 10) : TakesImm [x] := by
  rw [← msn_toNat] at h
  obtain h | h | h | h := h
  all_goals exact ⟨_, fun m t => by rw [List.singleton_append, decode, h]; rfl⟩

theorem takesImm_two {x : Byte}
    (h : x.toNat / 16 = 2 ∨ x.toNat / 16 = 5 ∨ x.toNat / 16 = 10 ∨ x.toNat / 16 = 13) :
    TakesImm [0xF8, x] := by
  have hdecode : ∀ m t, decode m ([0xF8, x] ++ t) = thirdLevel m x t := fun _ _ => rfl
  rw [← msn_toNat] at h
  obtain h | h | h | h := h
  all_goals exact ⟨_, fun m t => by rw [hdecode, thirdLevel, h]; rfl⟩

theorem imm5Value_malformed {m : Imm5Mode} {b5 : Byte} (b1 b2 b3 b4 : Byte)
    (h : 128 ≤ b5.toNat ∨ m = .last4 ∧ 16 ≤ b5.toNat) :
    ∃ e, imm5Value m b1 b2 b3 b4 b5 = .error e := by
  by_cases h5 : 128 ≤ b5.toNat
  · exact ⟨_, imm5Value_continues m b1 b2 b3 b4 h5⟩
  · obtain ⟨rfl, h16⟩ := h.resolve_left h5
    exact ⟨_, imm5Value_last4_high b1 b2 b3 b4 h16 (by omega)⟩

theorem withImm_five_error {m : Imm5Mode} {b1 b2 b3 b4 b5 : Byte} {e : DecodeError} (mk : Imm → Instr)
    (t : List Byte) (h1 : continues b1 = true) (h2 : continues b2 = true) (h3 : continues b3 = true)
    (h4 : continues b4 = true) (he : imm5Value m b1 b2 b3 b4 b5 = .error e) :
    withImm m mk (b1 :: b2 :: b3 :: b4 :: b5 :: t) = .error e := by
  rw [withImm, decodeImm_five m b5 t h1 h2 h3 h4, he]
  rfl

/-- Where the bytes at pc are no instruction, and not for want of bytes, the fetch stops. -/
theorem fetchInstr_of_malformed {s : State} {e : DecodeError}
    (h : decode s.cfg.imm5 (s.fetchBytes 7 s.pc) = .error e) (he : e ≠ .truncated) :
    s.fetchInstr = .error .badImmediate := by
  unfold State.fetchInstr
  rw [h]
  cases e with
  | truncated => exact absurd rfl he
  | fifthByteContinues | fifthByteHighBits => rfl

/-- Settles O14: the fetch reads the opcode and the five bytes, and the immediate has no value. -/
theorem malformedImmediateFaults : Obligations.MalformedImmediateFaults := by
  intro s op x b1 b2 b3 b4 b5 hno hop hbytes h1 h2 h3 h4 h5
  rw [← continues_iff] at h1 h2 h3 h4
  obtain ⟨⟨mk, hmk⟩, hlen⟩ : TakesImm op ∧ op.length ≤ 2 := by
    obtain ⟨rfl, h⟩ | ⟨rfl, h⟩ := hop
    · exact ⟨takesImm_one h, by simp⟩
    · exact ⟨takesImm_two h, by simp⟩
  obtain ⟨e, he⟩ := imm5Value_malformed b1 b2 b3 b4 h5
  have hseven : (op ++ [b1, b2, b3, b4, b5]).length + (2 - op.length) = 7 := by
    simp only [List.length_append, List.length_cons, List.length_nil]
    omega
  have hfetch := fetchBytes_append (n := 2 - op.length) hbytes
  rw [hseven, List.append_assoc] at hfetch
  have hdecode : decode s.cfg.imm5 (s.fetchBytes 7 s.pc) = .error e := by
    rw [hfetch, hmk]
    exact withImm_five_error mk _ h1 h2 h3 h4 he
  exact step_of_fetchInstr_error hno
    (fetchInstr_of_malformed hdecode fun h => imm5Value_ne_truncated (h ▸ he))

/-! ## Words of the tables, and the moves -/

/-- Settles O8: the decoder evaluated on each word. -/
theorem specWordsDecode : Obligations.SpecWordsDecode :=
  ⟨rfl, rfl, rfl, rfl, rfl, rfl, rfl, rfl, rfl, rfl, rfl, rfl, rfl⟩

/-- Settles O15: the first byte of each move is its opcode with the register number. -/
theorem movesWriteOneRegister : Obligations.MovesWriteOneRegister := by
  intro s m bs rest x imm n
  have h0 : BitVec.ofNat 8 (0x00 + x.val) = opByte 0 (regNib x) := ofNat_eq_opByte 0 x
  have h1 : BitVec.ofNat 8 (0x10 + x.val) = opByte 1 (regNib x) := ofNat_eq_opByte 1 x
  have h8 : BitVec.ofNat 8 (0x80 + x.val) = opByte 8 (regNib x) := ofNat_eq_opByte 8 x
  have h9 : BitVec.ofNat 8 (0x90 + n.toNat) = opByte 9 n := ofNat_eq_opByte 9 n.toFin
  rw [h0, h1, h8, h9]
  refine ⟨decode_encode m (.rxFromA x) bs rfl, rfl, decode_encode m (.aFromRx x) bs rfl, rfl, fun h => ?_,
    rfl, decode_encode m (.aImm n) bs rfl, n.signExtend 32, rfl, BitVec.toInt_signExtend_of_le (by decide)⟩
  simp [decode, withImm, h]

end Sys2Proof.Machine
end

section
/-! The family 42_jumps.md: the jumps on the flags as they stand, the flags of a subtraction as comparisons,
and the jump to itself (R120 to R138, R197). -/

namespace Sys2Proof

/-- A relative jump is its opcode byte and an immediate (R53). -/
theorem decode_jumpOf {m : Imm5Mode} {bs rest : List Byte} {imm : Imm} (f : BitVec 4)
    (h : decodeImm m bs = .ok (imm, rest)) : decode m (opByte 10 f :: bs) = .ok (jumpOf f imm, rest) := by
  simp [decode, withImm, h]

end Sys2Proof

namespace Sys2Proof.Machine

/-! ## The conditional jumps, one rule for all -/

theorem exec_jumpOf {s : State} {imm : Imm} {taken : Bool} (f : BitVec 4)
    (hf : readsFlags (jumpOf f imm) = true) (htaken : flagBit (jumpOf f imm) s.cc = taken) :
    exec (jumpOf f imm) s = .next (s.jumpIf taken imm) := by
  subst htaken
  revert hf
  unfold jumpOf
  split
  case h_1 | h_16 => nofun
  all_goals exact fun _ => rfl

theorem jumpOf_decodes_and_jumps {s : State} {m : Imm5Mode} {bs rest : List Byte} {imm : Imm} {taken : Bool}
    (f : BitVec 4) (hf : readsFlags (jumpOf f imm) = true) (htaken : flagBit (jumpOf f imm) s.cc = taken) :
    (decodeImm m bs = .ok (imm, rest) → decode m (opByte 10 f :: bs) = .ok (jumpOf f imm, rest)) ∧
    exec (jumpOf f imm) s = .next (s.jumpIf taken imm) :=
  ⟨decode_jumpOf f, exec_jumpOf f hf htaken⟩

/-- Settles O22: byte 0 selects the jump, and the flag it reads is its condition. -/
theorem wholeWordJumpsChangeOnlyPc : Obligations.WholeWordJumpsChangeOnlyPc := fun _ _ _ _ _ =>
  ⟨⟨decode_jumpOf 0, rfl⟩, jumpOf_decodes_and_jumps 1 rfl rfl,
    jumpOf_decodes_and_jumps 2 rfl (Bool.not_not _), jumpOf_decodes_and_jumps 3 rfl rfl,
    jumpOf_decodes_and_jumps 4 rfl rfl, jumpOf_decodes_and_jumps 5 rfl rfl, jumpOf_decodes_and_jumps 6 rfl rfl⟩

/-- Settles O23, as O22. -/
theorem narrowJumpsChangeOnlyPc : Obligations.NarrowJumpsChangeOnlyPc := fun _ _ _ _ _ =>
  ⟨jumpOf_decodes_and_jumps 7 rfl rfl, jumpOf_decodes_and_jumps 8 rfl rfl, jumpOf_decodes_and_jumps 9 rfl rfl,
    jumpOf_decodes_and_jumps 10 rfl rfl, jumpOf_decodes_and_jumps 11 rfl rfl,
    jumpOf_decodes_and_jumps 12 rfl rfl, jumpOf_decodes_and_jumps 13 rfl rfl,
    jumpOf_decodes_and_jumps 14 rfl rfl⟩

/-- Settles O24: the call is the sixteenth relative jump, and `j-A` the encoding of one byte. -/
theorem callLinksAndIndirectJump : Obligations.CallLinksAndIndirectJump := fun _ m bs _ _ =>
  ⟨decode_jumpOf 15, rfl, decode_encode m .jA bs rfl, rfl⟩

/-! ## The flags of `A = A - Rx` as comparisons (R142) -/

section
variable (a b : Word)

theorem subFlags_n : (subFlags a b).n = decide ((a - b).toInt < 0) :=
  (BitVec.msb_eq_getLsbD_last _).symm.trans BitVec.msb_eq_toInt

/-- The flag v is the signed overflow of the difference. -/
theorem subFlags_v : (subFlags a b).v = decide (a.toInt - b.toInt < -2 ^ 31 ∨ 2 ^ 31 ≤ a.toInt - b.toInt) := by
  have hv : (subFlags a b).v = ((a.msb != b.msb) && ((a - b).msb != a.msb)) := by
    simp only [BitVec.msb_eq_getLsbD_last]
    rfl
  have hoverflow : (subFlags a b).v = a.ssubOverflow b := by
    rw [hv, BitVec.ssubOverflow_eq]
    generalize a.msb = p, b.msb = q, (a - b).msb = r
    revert p q r
    decide
  rw [hoverflow, BitVec.ssubOverflow, ← Bool.decide_or]
  exact decide_eq_decide.mpr or_comm

theorem subFlags_z : (subFlags a b).z = decide (a = b) := decide_eq_decide.mpr sub_eq_zero

theorem subFlags_c : (subFlags a b).c = decide (a.toNat < b.toNat) := rfl

theorem extract_lt_iff (k : Nat) :
    a.extractLsb' 0 k < b.extractLsb' 0 k ↔ a.toNat % 2 ^ k < b.toNat % 2 ^ k := by
  rw [BitVec.lt_def, toNat_extract, toNat_extract, Nat.pow_zero, Nat.div_one, Nat.div_one]

/-- A difference has `k` low zeros where the `k` low bits are the same. -/
theorem extract_sub_eq_zero_iff {k : Nat} (hk : k ≤ 32) :
    (a - b).extractLsb' 0 k = 0 ↔ a.toNat % 2 ^ k = b.toNat % 2 ^ k := by
  have hsub : (a - b).extractLsb' 0 k = a.setWidth k - b.setWidth k := by
    rw [← BitVec.setWidth_eq_extractLsb' hk, sub_eq_add_neg, sub_eq_add_neg, BitVec.setWidth_add _ _ hk,
      BitVec.setWidth_neg_of_le hk]
  rw [hsub, sub_eq_zero, ← BitVec.toNat_inj, BitVec.toNat_setWidth, BitVec.toNat_setWidth]

theorem subFlags_c8 : (subFlags a b).c8 = decide (a.toNat % 2 ^ 8 < b.toNat % 2 ^ 8) :=
  decide_eq_decide.mpr (extract_lt_iff a b 8)

theorem subFlags_z8 : (subFlags a b).z8 = decide (a.toNat % 2 ^ 8 = b.toNat % 2 ^ 8) :=
  decide_eq_decide.mpr (extract_sub_eq_zero_iff a b (by decide))

theorem subFlags_c16 : (subFlags a b).c16 = decide (a.toNat % 2 ^ 16 < b.toNat % 2 ^ 16) :=
  decide_eq_decide.mpr (extract_lt_iff a b 16)

theorem subFlags_z16 : (subFlags a b).z16 = decide (a.toNat % 2 ^ 16 = b.toNat % 2 ^ 16) :=
  decide_eq_decide.mpr (extract_sub_eq_zero_iff a b (by decide))

/-- The sign of the difference is that of the exact one unless it overflows, and then it is the other. -/
theorem condLt_subFlags : condLt (subFlags a b) = decide (a.toInt < b.toInt) := by
  have ha := a.toInt_lt
  have ha' := a.le_toInt
  have hb := b.toInt_lt
  have hb' := b.le_toInt
  have hsub : (a - b).toInt = (a.toInt - b.toInt).bmod (2 ^ 32) := BitVec.toInt_sub
  rw [Int.bmod_def] at hsub
  rw [condLt, subFlags_n, subFlags_v, Bool.eq_iff_iff, bne_iff_ne, ne_eq, decide_eq_decide, decide_eq_true_iff]
  omega

end

/-! ## Compare and jump (R138) -/

/-- In `u` the relative jump `i` goes to `next + imm` where `p` holds, and to `next` where it does not. -/
def JumpsExactlyIf (u : State) (imm : Imm) (i : Instr) (p : Prop) : Prop :=
  (p → exec i u = .next (u.jumpIf true imm)) ∧ (¬ p → exec i u = .next (u.jumpIf false imm))

theorem jumpsExactlyIf_of_flagBit {u : State} {imm : Imm} {f : BitVec 4} {p : Prop} [Decidable p]
    (hf : readsFlags (jumpOf f imm) = true) (hp : flagBit (jumpOf f imm) u.cc = decide p) :
    JumpsExactlyIf u imm (jumpOf f imm) p :=
  ⟨fun h => exec_jumpOf f hf (hp.trans (decide_eq_true h)),
    fun h => exec_jumpOf f hf (hp.trans (decide_eq_false h))⟩

/-- Two jumps of which the second reads the first one's condition negated. -/
theorem jumpPair_jumpsExactlyIf {u : State} {imm : Imm} (f g : BitVec 4) {p q : Prop} [Decidable p]
    (hf : readsFlags (jumpOf f imm) = true) (hg : readsFlags (jumpOf g imm) = true)
    (hneg : flagBit (jumpOf g imm) u.cc = !flagBit (jumpOf f imm) u.cc) (hq : ¬ p ↔ q)
    (hp : flagBit (jumpOf f imm) u.cc = decide p) :
    JumpsExactlyIf u imm (jumpOf f imm) p ∧ JumpsExactlyIf u imm (jumpOf g imm) q := by
  obtain rfl : (¬ p) = q := propext hq
  refine ⟨jumpsExactlyIf_of_flagBit hf hp, jumpsExactlyIf_of_flagBit hg ?_⟩
  rw [hneg, hp, decide_not]

/-- Settles O18: each flag of the subtraction is the comparison its pair of jumps is named after. -/
theorem compareAndJump : Obligations.CompareAndJump := by
  intro s u x imm a b _ _
  refine ⟨_, rfl, fun hn hv => ?_, fun hc => ?_, fun hz => ?_, fun hc => ?_, fun hz => ?_, fun hc => ?_,
    fun hz => ?_⟩
  · have hlt : condLt u.cc = condLt (subFlags a b) := congrArg₂ (· ^^ ·) hn hv
    exact jumpPair_jumpsExactlyIf 1 2 rfl rfl rfl Int.not_lt (hlt.trans (condLt_subFlags a b))
  · exact jumpPair_jumpsExactlyIf 3 4 rfl rfl rfl Nat.not_lt (hc.trans (subFlags_c a b))
  · exact jumpPair_jumpsExactlyIf 5 6 rfl rfl rfl Iff.rfl (hz.trans (subFlags_z a b))
  · exact jumpPair_jumpsExactlyIf 7 8 rfl rfl rfl Nat.not_lt (hc.trans (subFlags_c8 a b))
  · exact jumpPair_jumpsExactlyIf 9 10 rfl rfl rfl Iff.rfl (hz.trans (subFlags_z8 a b))
  · exact jumpPair_jumpsExactlyIf 11 12 rfl rfl rfl Nat.not_lt (hc.trans (subFlags_c16 a b))
  · exact jumpPair_jumpsExactlyIf 13 14 rfl rfl rfl Iff.rfl (hz.trans (subFlags_z16 a b))

/-! ## The end of a run (R197, R206) -/

/-- `j #-2`, two bytes long: the jump to itself. -/
def jumpToItself : Instr := .j ⟨1, -2⟩

theorem encode_jumpToItself (m : Imm5Mode) : encode m jumpToItself = [0xA0, 0x7E] := by
  cases m <;> decide

theorem exec_jumpToItself (s : State) : exec jumpToItself s = .next s := by
  have hpc : s.jumpTarget ⟨1, -2⟩ = s.pc := by
    show s.pc + 2 + -2 = s.pc
    rw [add_neg_cancel_right]
  show Host.Outcome.next { s with pc := s.jumpTarget ⟨1, -2⟩ } = .next s
  rw [hpc]

theorem State.Ended.noRequest {s : State} (h : s.Ended) : s.ie = false ∨ s.irq.head? ≠ some true :=
  h.noEntry.imp_right fun hirq hhead => nomatch hirq true (List.mem_of_mem_head? hhead)

theorem State.Ended.passBoundary {s : State} (h : s.Ended) : s.passBoundary.Ended where
  byte0 := h.byte0
  byte1 := h.byte1
  noEntry := h.noEntry.imp_right fun hirq b hb => hirq b (List.mem_of_mem_tail hb)

/-- Settles O59: the step runs the jump to itself, in the state past the boundary. -/
theorem endOfRunLoops : Obligations.EndOfRunLoops := fun s h =>
  ⟨(step_of_two_bytes h.noRequest h.byte0 h.byte1 rfl encode_jumpToItself).trans
    (exec_jumpToItself s.passBoundary), h.passBoundary⟩

end Sys2Proof.Machine
end

section
/-! The family 43_arithmetic_and_logic.md: arithmetic, logic, shifts, masks and extensions on A as numbers
(R140 to R154). -/

namespace Sys2Proof.Machine

/-- A bit as a number. -/
theorem toNat_getLsbD {n : Nat} (v : BitVec n) (i : Nat) : (v.getLsbD i).toNat = v.toNat / 2 ^ i % 2 :=
  Nat.toNat_testBit v.toNat i

/-! ## Subtraction (R142) -/

theorem subFlags_z_toNat (a b : Word) : (subFlags a b).z = decide (a.toNat = b.toNat) :=
  (subFlags_z a b).trans (decide_eq_decide.mpr BitVec.toNat_inj.symm)

theorem toNat_sub_mod (a b : Word) : (a - b).toNat = (a.toNat + 2 ^ 32 - b.toNat) % 2 ^ 32 := by
  have hb := b.isLt
  rw [BitVec.toNat_sub]
  omega

/-- Settles O17: each flag by its own law. -/
theorem subtractSetsTheEightFlags : Obligations.SubtractSetsTheEightFlags := by
  intro s x a b
  refine ⟨a - b, toNat_sub_mod a b, ?_⟩
  rw [← subFlags_n, ← subFlags_v, ← subFlags_z_toNat, ← subFlags_c, ← subFlags_c8, ← subFlags_z8,
    ← subFlags_c16, ← subFlags_z16]
  rfl

/-! ## Addition with carry (R146) -/

/-- 33 bits hold the sum of two words and a carry. -/
theorem adcSum_toNat (a b : Word) (c : Bool) : (adcSum a b c).toNat = a.toNat + b.toNat + c.toNat := by
  have ha := a.isLt
  have hb := b.isLt
  have hc := c.toNat_lt
  simp only [adcSum, BitVec.toNat_add, BitVec.toNat_setWidth, BitVec.toNat_ofBool]
  omega

/-- A vector is its top bit and the bits below it. -/
theorem toNat_top_add_low {n : Nat} (t : BitVec (n + 1)) :
    (t.getLsbD n).toNat * 2 ^ n + (t.extractLsb' 0 n).toNat = t.toNat := by
  have htop : t.toNat / 2 ^ n < 2 := Nat.div_lt_of_lt_mul (Nat.pow_succ .. ▸ t.isLt)
  rw [toNat_getLsbD, toNat_extract, Nat.mod_eq_of_lt htop, Nat.pow_zero, Nat.div_one, Nat.div_add_mod']

/-- Settles O19: c is the top bit of the 33-bit sum, and A the bits below it. -/
theorem addWithCarryIsExact : Obligations.AddWithCarryIsExact := fun s x =>
  ⟨_, _, rfl, (toNat_top_add_low _).trans (adcSum_toNat s.a (s.reg x) s.cc.c)⟩

/-! ## The shifts (R148 to R150) -/

theorem shiftLeftOne_exact (a : Word) :
    (a.getLsbD 31).toNat * 2 ^ 32 + (a.extractLsb' 0 31 ++ 0#1).toNat = 2 * a.toNat := by
  have hsplit : (a.getLsbD 31).toNat * 2 ^ 31 + (a.extractLsb' 0 31).toNat = a.toNat := toNat_top_add_low a
  rw [toNat_append, BitVec.toNat_ofNat, Nat.zero_mod]
  linarith

/-- A word is twice the bits above bit 0, and bit 0. -/
theorem twice_high_add_bit0 (a : Word) :
    2 * (a.extractLsb' 1 31).toNat + (a.getLsbD 0).toNat = a.toNat := by
  have ha := a.isLt
  rw [toNat_extract, toNat_getLsbD]
  omega

theorem shiftRightOne_exact (a : Word) :
    2 * (0#1 ++ a.extractLsb' 1 31).toNat + (a.getLsbD 0).toNat = a.toNat := by
  rw [toNat_append, BitVec.toNat_ofNat, Nat.zero_mod, Nat.zero_mul, Nat.zero_add, twice_high_add_bit0]

/-- Keeping the sign bit halves a signed number, rounding down. -/
theorem arithShiftRightOne_exact (a : Word) :
    2 * (a.extractLsb' 31 1 ++ a.extractLsb' 1 31).toInt + (a.getLsbD 0).toNat = a.toInt := by
  have ha := a.isLt
  have hhalf := twice_high_add_bit0 a
  have hlow := (a.extractLsb' 1 31).isLt
  rw [BitVec.toInt_eq_toNat_cond, BitVec.toInt_eq_toNat_cond, toNat_append, toNat_extract _ a 31 1]
  omega

/-- Settles O20, shift by shift. -/
theorem shiftsMoveOneBitThroughCarry : Obligations.ShiftsMoveOneBitThroughCarry := fun s =>
  ⟨⟨_, _, rfl, shiftLeftOne_exact s.a⟩, ⟨_, _, rfl, shiftRightOne_exact s.a⟩,
    ⟨_, _, rfl, arithShiftRightOne_exact s.a⟩⟩

/-! ## Masks and extensions (R151 to R154) -/

/-- Settles O21: a mask keeps the low bits as a narrow access does, an extension reads them as signed. -/
theorem masksAndExtensions : Obligations.MasksAndExtensions := fun s m bs =>
  ⟨decode_encode m .maskbA bs rfl, ⟨_, rfl, lowBits_toNat .byte s.a⟩,
    decode_encode m .maskwA bs rfl, ⟨_, rfl, lowBits_toNat .word s.a⟩,
    decode_encode m .sexbA bs rfl, ⟨_, rfl, toInt_signExtend_low 8 (by decide) s.a⟩,
    decode_encode m .sexwA bs rfl, ⟨_, rfl, toInt_signExtend_low 16 (by decide) s.a⟩⟩

/-! ## Addition and the bitwise operations (R141, R143 to R145, R147) -/

theorem toNat_not_add_self (a : Word) : (~~~a).toNat + a.toNat = 2 ^ 32 - 1 := by
  rw [BitVec.toNat_not, Nat.sub_add_cancel (Nat.le_sub_one_of_lt a.isLt)]

/-- Settles O16: the bytes by the decoder's round trip, the results bit by bit or as numbers. -/
theorem addAndLogicWriteOnlyA : Obligations.AddAndLogicWriteOnlyA := by
  intro s m bs x
  have hadd : BitVec.ofNat 8 (0xB0 + x.val) = opByte 11 (regNib x) := ofNat_eq_opByte 11 x
  have hand : BitVec.ofNat 8 (0xD0 + x.val) = opByte 13 (regNib x) := ofNat_eq_opByte 13 x
  have hor : BitVec.ofNat 8 (0xE0 + x.val) = opByte 14 (regNib x) := ofNat_eq_opByte 14 x
  have hxor : BitVec.ofNat 8 (0x90 + x.val) = opByte 9 (regNib x) := ofNat_eq_opByte 9 x
  rw [hadd, hand, hor, hxor]
  exact ⟨decode_encode m (.addA x) bs rfl, ⟨_, rfl, BitVec.toNat_add ..⟩,
    decode_encode m (.andA x) bs rfl, ⟨_, rfl, fun _ => BitVec.getLsbD_and⟩,
    decode_encode m (.orA x) bs rfl, ⟨_, rfl, fun _ => BitVec.getLsbD_or⟩,
    decode_encode m (.xorA x) bs rfl, ⟨_, rfl, fun _ => BitVec.getLsbD_xor⟩,
    decode_encode m .notA bs rfl, ⟨_, rfl, toNat_not_add_self s.a⟩⟩

end Sys2Proof.Machine
end

section
/-! The family 44_stack.md: ranges of registers pushed to memory and popped from it (R160 to R162). -/

namespace Sys2Proof.Machine

/-! ## Push -/

/-- Settles O33: the pushes as `pushUpTo_ram` gives them, then `pc <- next`. -/
theorem pushRangeStoresEachRegister : Obligations.PushRangeStoresEachRegister := by
  intro s n sp hram
  obtain ⟨t, hpush, hslot, hsame, hframe⟩ := pushUpTo_ram n.isLt hram
  refine ⟨t.advance lenT, congrArg (retire lenT) hpush, hslot, hsame, ?_⟩
  rw [hframe]
  rfl

/-! ## Pop -/

/-- `pc <- next` after pops from memory. -/
theorem advance_of_pops {s t : State} (h : t = { s with regs := t.regs }) :
    t.advance lenT = { s with regs := t.regs, pc := s.pc + 2 } := by
  rw [h]
  rfl

/-- Settles O34: the pops as `popDownFrom_ram` gives them, then `pc <- next`. -/
theorem popRangeLoadsEachRegister : Obligations.PopRangeLoadsEachRegister := by
  intro s n sp hn hram
  obtain ⟨t, hpop, hloaded, hsp, hkept, hframe⟩ := popDownFrom_ram hn hram
  exact ⟨t.advance lenT, congrArg (retire lenT) hpop, hloaded, hsp, hkept, advance_of_pops hframe⟩

/-- `pop R0..R15` where every slot has memory: one slot for R15, and then `pop R0..R14` from the next. -/
theorem popDownFrom_fifteen (s : State) (h : s.accessClass .dword (s.reg 14) = .ram)
    (hown : s.accessClass .dword (poppedAt (s.reg 14) 1) = .ram)
    (habove : s.RamAbove (s.slot (poppedAt (s.reg 14) 1) + 4) 14) :
    ∃ t, s.popDownFrom 15 = .ok t ∧
      (∀ k : Reg, k.val < 14 →
        t.reg k = s.slot (poppedAt (s.slot (poppedAt (s.reg 14) 1) + 4) (13 - k.val))) ∧
      t.reg 14 = poppedAt (s.slot (poppedAt (s.reg 14) 1) + 4) 14 ∧
      t.reg 15 = s.slot (s.reg 14) ∧
      t = { s with regs := t.regs } := by
  have hfirst := popReg_ram 15 h
  generalize hu : (s.setReg 15 (s.slot (s.reg .sp))).moveSp 4 = u at hfirst
  have hsp : u.reg 14 = poppedAt (s.reg 14) 1 := by
    rw [← hu]
    exact (State.reg_moveSp_same _ 4).trans (congrArg (· + 4) (State.reg_setReg_other s _ (by decide)))
  have hsrp : u.reg 15 = s.slot (s.reg 14) := by
    rw [← hu, State.reg_moveSp_other _ _ (by decide), State.reg_setReg_same]
  have hslot : ∀ a, u.slot a = s.slot a := slot_of_dmem (by rw [← hu]; rfl)
  have hclass : ∀ a, u.accessClass .dword a = s.accessClass .dword a :=
    accessClass_congr (by rw [← hu]; rfl) .dword
  obtain ⟨t, hpop, hloaded, htop, hkept, hframe⟩ := popDownFrom_throughSp u
    (by rwa [hclass, hsp]) (by rw [hslot, hsp]; exact fun k hk => (hclass _).trans (habove k hk))
  simp only [hslot, hsp] at hloaded htop
  refine ⟨t, bind_eq_ok.mpr ⟨u, hfirst, hpop⟩, hloaded, htop, hkept.trans hsrp, ?_⟩
  rw [hframe, ← hu]
  rfl

/-- The registers that a pop reaches before R13: R14, and R15 before it. -/
theorem reg_eq_of_ge {k : Reg} (h : 14 ≤ k.val) : k = 14 ∨ k = 15 := by
  revert k
  decide

theorem reg_ne_of_lt {k : Reg} (h : k.val < 14) : k ≠ 14 := by
  rintro rfl
  exact absurd h (by decide)

/-- Settles O35: with n = 14 the slot at R14 is R14's own, with n = 15 the one above it is. -/
theorem popRangeThroughTheStackPointer : Obligations.PopRangeThroughTheStackPointer := by
  intro s n own base hn hbelow habove
  have hram : s.accessClass .dword (s.reg 14) = .ram := poppedAt_zero (s.reg 14) ▸ hbelow 0 (by omega)
  obtain rfl | rfl := reg_eq_of_ge hn
  · have hown : own = s.reg 14 := poppedAt_zero _
    simp only [base, hown] at habove ⊢
    obtain ⟨t, hpop, hloaded, hsp, hsrp, hframe⟩ := popDownFrom_throughSp s hram habove
    exact ⟨t.advance lenT, congrArg (retire lenT) hpop, hloaded, hsp, hsrp, advance_of_pops hframe⟩
  · obtain ⟨t, hpop, hloaded, hsp, hsrp, hframe⟩ :=
      popDownFrom_fifteen s hram (hbelow 1 (by decide)) habove
    exact ⟨t.advance lenT, congrArg (retire lenT) hpop, hloaded, hsp, hsrp, advance_of_pops hframe⟩

/-! ## Pop after push -/

/-- From the last of the pushed slots upwards, the slots come in the opposite order. -/
theorem poppedAt_pushedAt_sub (sp : Word) {j n : Nat} (h : j ≤ n) :
    poppedAt (pushedAt sp n) j = pushedAt sp (n - j) := by
  rw [poppedAt_pushedAt sp h]
  split
  · next h0 => rw [h0, Nat.sub_zero]
  · rfl

theorem ramAbove_of_ramBelow {u : State} {sp : Word} {n : Nat} (h : u.RamBelow sp (n + 1)) :
    u.RamAbove (pushedAt sp n) (n + 1) := by
  intro k hk
  rw [poppedAt_pushedAt_sub sp (Nat.le_of_lt_succ hk)]
  exact h (n - k) (by omega)

theorem State.RamBelow.mono {u : State} {sp : Word} {m n : Nat} (h : u.RamBelow sp n) (hmn : m ≤ n) :
    u.RamBelow sp m := fun k hk => h k (by omega)

theorem State.RamAbove.mono {u : State} {sp : Word} {m n : Nat} (h : u.RamAbove sp n) (hmn : m ≤ n) :
    u.RamAbove sp m := fun k hk => h k (by omega)

theorem pushedValue_of_ne {s : State} {k : Reg} (h : k ≠ 14) : s.pushedValue k = s.reg k := if_neg h

/-- `u` has at and above its stack pointer what `push R0..Rn` from `s` put there. -/
structure HoldsPushed (s u : State) (n : Reg) : Prop where
  sp   : u.reg 14 = pushedAt (s.reg 14) n.val
  ram  : u.RamBelow (s.reg 14) (n.val + 1)
  slot : ∀ k : Reg, k ≤ n → u.slot (pushedAt (s.reg 14) k.val) = s.pushedValue k

/-- R14 is stored as the address of its own slot. -/
theorem HoldsPushed.slot_sp {s u : State} {n : Reg} (h : HoldsPushed s u n) (hn : 14 ≤ n.val) :
    u.slot (pushedAt (s.reg 14) 14) = pushedAt (s.reg 14) 14 := h.slot 14 hn

theorem HoldsPushed.slot_reg {s u : State} {n k : Reg} (h : HoldsPushed s u n) (hk : k ≤ n)
    (hsp : k ≠ 14) :
    u.slot (pushedAt (s.reg 14) k.val) = s.reg k := (h.slot k hk).trans (pushedValue_of_ne hsp)

/-- `v` comes from `u` by popping R0 to Rn back to what they were in `s`. -/
def RestoresPushed (s u v : State) (n : Reg) : Prop :=
  (∀ k : Reg, k ≤ n ∨ k = 14 → v.reg k = s.reg k) ∧
  (∀ k : Reg, n < k → k ≠ 14 → v.reg k = u.reg k) ∧
  v = { u with regs := v.regs, pc := u.pc + 2 }

/-- With R14 outside the range, each register comes back from its own slot. -/
theorem popR_restores_below {s u : State} {n : Reg} (h : HoldsPushed s u n) (hn : n.val < 14) :
    ∃ v, exec (.popR n) u = .next v ∧ RestoresPushed s u v n := by
  obtain ⟨v, hexec, hloaded, hsp, hkept, hframe⟩ :=
    popRangeLoadsEachRegister u n hn (by rw [h.sp]; exact ramAbove_of_ramBelow h.ram)
  rw [h.sp, poppedAt_pushedAt_self] at hsp
  refine ⟨v, hexec, ?_, hkept, hframe⟩
  rintro k (hk | rfl)
  · rw [hloaded k hk, h.sp, poppedAt_pushedAt_sub _ (Nat.sub_le _ _), Nat.sub_sub_self hk,
      h.slot_reg hk (reg_ne_of_lt (Nat.lt_of_le_of_lt hk hn))]
  · exact hsp

/-- With R14 inside the range, its slot holds the slot's own address, so that the pops go on right above
it. -/
theorem popR_restores_through_sp {s u : State} {n : Reg} (h : HoldsPushed s u n) (hn : 14 ≤ n.val) :
    ∃ v, exec (.popR n) u = .next v ∧ RestoresPushed s u v n := by
  have hown : poppedAt (u.reg 14) (n.val - 14) = pushedAt (s.reg 14) 14 := by
    rw [h.sp, poppedAt_pushedAt_sub _ (Nat.sub_le _ _), Nat.sub_sub_self hn]
  have hbase : u.slot (poppedAt (u.reg 14) (n.val - 14)) + 4 = pushedAt (s.reg 14) 13 := by
    rw [hown, h.slot_sp hn, ← poppedAt_one, poppedAt_pushedAt_sub _ (by decide)]
  obtain ⟨v, hexec, hloaded, hsp, hsrp, hframe⟩ := popRangeThroughTheStackPointer u n hn
    (by rw [h.sp]; exact (ramAbove_of_ramBelow h.ram).mono (by omega))
    (by rw [hbase]; exact ramAbove_of_ramBelow (h.ram.mono (by omega)))
  rw [hbase, poppedAt_pushedAt_self] at hsp
  refine ⟨v, hexec, fun k hk => ?_, fun k hk hk14 => ?_, hframe⟩
  · obtain hlow | hhigh := Nat.lt_or_ge k.val 14
    · rw [hloaded k hlow, hbase, poppedAt_pushedAt_sub _ (Nat.sub_le _ _), Nat.sub_sub_self (by omega),
        h.slot_reg (Fin.le_def.mpr (by omega)) (reg_ne_of_lt hlow)]
    · obtain rfl | rfl := reg_eq_of_ge hhigh
      · exact hsp
      · have hle : 15 ≤ n := hk.resolve_right (by decide)
        obtain rfl : n = 15 := Fin.le_antisymm (Fin.le_last n) hle
        rw [hsrp, if_pos rfl, h.sp]
        exact h.slot_reg hle (by decide)
  · obtain rfl : k = 15 := (reg_eq_of_ge (hn.trans (Nat.le_of_lt hk))).resolve_left hk14
    rw [hsrp, if_neg (Fin.ne_of_lt hk)]

/-- Settles O38: a state with the pushed bytes has the pushed slots, and the pop restores from those. -/
theorem popUndoesPush : Obligations.PopUndoesPush := by
  intro s t u n hram hpush husp hcfg hbytes
  obtain ⟨t', hpush', hslot, -, hframe⟩ := pushRangeStoresEachRegister s n hram
  obtain rfl : t = t' := Host.Outcome.next.inj (hpush.symm.trans hpush')
  have htsp : t.reg 14 = pushedAt (s.reg 14) n.val := by
    rw [hframe]
    exact State.reg_setReg_same s 14 _
  have hcfg' : u.cfg = s.cfg := hcfg.trans (by rw [hframe]; rfl)
  have hholds : HoldsPushed s u n := {
    sp := husp.trans htsp
    ram := fun k hk => (accessClass_congr hcfg' .dword _).trans (hram k hk)
    slot := fun k hk => (slot_congr fun b hb => hbytes b (pushed_inBlock hk hb)).trans (hslot k hk) }
  obtain hn | hn := Nat.lt_or_ge n.val 14
  · exact popR_restores_below hholds hn
  · exact popR_restores_through_sp hholds hn

end Sys2Proof.Machine
end

section
/-! The family 45_interrupt_control.md: `ei`, `di` and `reti` (R170 to R172). -/

namespace Sys2Proof.Machine

/-- Settles O39: both instructions are two bytes long, and neither can stop. -/
theorem enableAndDisable : Obligations.EnableAndDisable := fun _ => ⟨rfl, rfl⟩

/-- Settles O42: `reti` is the return from an interrupt and nothing after it, since pc is popped. -/
theorem returnPopsTheFrame : Obligations.ReturnPopsTheFrame := by
  intro s sp base hframe hregs
  obtain ⟨t, hreturn, hloaded, hsp, hsrp, hrest⟩ := returnFromInterrupt_ram hframe hregs
  exact ⟨t, outcome_eq_next.mpr hreturn, hloaded, hsp, hsrp, hrest⟩

end Sys2Proof.Machine
end

section
/-! The family 60_exceptions.md: a step with and without an interrupt (R184 to R187), the return to the
interrupted program (R188), and the suggested layout of the CC slot (R186). -/

namespace Sys2Proof.Machine

/-! ## A step without an interrupt (R184) -/

theorem fetchInstr_of_decode {s : State} {i : Instr} {rest : List Byte}
    (h : decode s.cfg.imm5 (s.fetchBytes 7 s.pc) = .ok (i, rest)) : s.fetchInstr = .ok i := by
  unfold State.fetchInstr
  rw [h]

/-- Settles O9: the instruction that the bytes at pc decode to is the one the step fetches. -/
theorem stepRunsTheDecodedInstruction : Obligations.StepRunsTheDecodedInstruction :=
  fun _ _ _ hno hdecode => step_of_fetchInstr hno (fetchInstr_of_decode hdecode)

/-- A fetch does not look at the schedule of requests. -/
theorem fetchInstr_withIrq (s : State) (l : List Bool) :
    State.fetchInstr { s with irq := l } = s.fetchInstr := rfl

/-- Settles O44: neither the fetch nor the state that the instruction runs on sees the head of the
schedule. -/
theorem requestIsIgnoredWhileDisabled : Obligations.RequestIsIgnoredWhileDisabled := by
  intro s b c l hie
  cases hfetch : s.fetchInstr with
  | ok i =>
    have hstep (d : Bool) : step { s with irq := d :: l } = exec i { s with irq := l } :=
      step_of_fetchInstr (.inl hie) ((fetchInstr_withIrq s _).trans hfetch)
    exact (hstep b).trans (hstep c).symm
  | error f =>
    have hstep (d : Bool) : step { s with irq := d :: l } = .fault f :=
      step_of_fetchInstr_error (.inl hie) ((fetchInstr_withIrq s _).trans hfetch)
    exact (hstep b).trans (hstep c).symm

/-! ## Interrupt entry (R185 to R187) -/

/-- Settles O40: the step is interrupt entry with the request used up, and its eighteen pushes go to
memory. -/
theorem interruptEntrySavesTheFrame : Obligations.InterruptEntrySavesTheFrame := by
  intro s sp hie hirq hram
  obtain ⟨t, hentry, hslot, ha, hcc, hpc, hsame, hframe⟩ := interruptEntry_ram (s := s.passBoundary) hram
  exact ⟨t, (step_of_request hie hirq).trans (congrArg outcome hentry), hslot, ha, hcc, hpc, hsame,
    hframe⟩

/-! ## Return to the interrupted program (R188) -/

/-- `u` has at and above its stack pointer the frame that interrupt entry from `s` puts there. -/
structure HoldsFrame (s u : State) : Prop where
  sp   : u.reg 14 = pushedAt (s.reg 14) 17
  cfg  : u.cfg = s.cfg
  ram  : u.RamBelow (s.reg 14) 18
  regs : ∀ k : Reg, k.val < 15 → u.slot (pushedAt (s.reg 14) k.val) = s.pushedValue k
  a    : u.slot (pushedAt (s.reg 14) 15) = s.a
  cc   : u.slot (pushedAt (s.reg 14) 16) = ccPack s.cfg.ccCodec s.cc
  pc   : u.slot (pushedAt (s.reg 14) 17) = s.pc

/-- A handler that leaves R14, the platform and the bytes of the frame leaves the frame. -/
theorem holdsFrame_of_step {s t u : State} (hie : s.ie = true) (hirq : s.irq.head? = some true)
    (hram : s.RamBelow (s.reg 14) 18) (hstep : step s = .next t) (husp : u.reg 14 = t.reg 14)
    (hcfg : u.cfg = t.cfg)
    (hbytes : ∀ a, InBlock (alignedBase .dword (pushedAt (s.reg 14) 17)) 72 a →
      u.dataByte a = t.dataByte a) :
    HoldsFrame s u := by
  obtain ⟨t', hstep', hregs, ha, hcc, hpc, -, hframe⟩ := interruptEntrySavesTheFrame s hie hirq hram
  obtain rfl : t = t' := Host.Outcome.next.inj (hstep.symm.trans hstep')
  have htsp : t.reg 14 = pushedAt (s.reg 14) 17 := by
    rw [hframe]
    exact State.reg_setReg_same s 14 _
  have hcfg' : u.cfg = s.cfg := hcfg.trans (by rw [hframe]; rfl)
  have hslot (j : Nat) (hj : j ≤ 17) : u.slot (pushedAt (s.reg 14) j) = t.slot (pushedAt (s.reg 14) j) :=
    slot_congr fun b hb => hbytes b (pushed_inBlock hj hb)
  exact {
    sp := husp.trans htsp
    cfg := hcfg'
    ram := fun k hk => (accessClass_congr hcfg' .dword _).trans (hram k hk)
    regs := fun k hk => (hslot k.val (by omega)).trans (hregs k hk)
    a := (hslot 15 (by decide)).trans ha
    cc := (hslot 16 (by decide)).trans hcc
    pc := (hslot 17 (by decide)).trans hpc }

namespace HoldsFrame

variable {s u : State}

/-- Upwards from the stack pointer, the slots of the frame come in the opposite order of their pushes. -/
theorem poppedAt_sp (h : HoldsFrame s u) {j : Nat} (hj : j ≤ 17) :
    poppedAt (u.reg 14) j = pushedAt (s.reg 14) (17 - j) := by
  rw [h.sp, poppedAt_pushedAt_sub _ hj]

/-- R14's own slot holds its own address, so that the pops after it go on right above it. -/
theorem base (h : HoldsFrame s u) : u.slot (poppedAt (u.reg 14) 3) + 4 = pushedAt (s.reg 14) 13 := by
  have hown : u.slot (pushedAt (s.reg 14) 14) = pushedAt (s.reg 14) 14 := h.regs 14 (by decide)
  rw [h.poppedAt_sp (by decide), hown, ← poppedAt_one, poppedAt_pushedAt_sub _ (by decide)]

/-- The slot from which `reti` pops a register below R14 is the one to which interrupt entry pushed it. -/
theorem slot_reg (h : HoldsFrame s u) {k : Reg} (hk : k.val < 14) :
    u.slot (poppedAt (pushedAt (s.reg 14) 13) (13 - k.val)) = s.reg k := by
  rw [poppedAt_pushedAt_sub _ (Nat.sub_le _ _), Nat.sub_sub_self (Nat.le_of_lt_succ hk), h.regs k (by omega),
    pushedValue_of_ne (reg_ne_of_lt hk)]

/-- The flags come back whatever the layout of their slot. -/
theorem ccUnpack_slot (h : HoldsFrame s u) :
    ccUnpack u.cfg.ccCodec (u.slot (pushedAt (s.reg 14) 16)) = s.cc := by
  rw [h.cc, h.cfg, ccUnpack_ccPack]

end HoldsFrame

/-- Settles O43: the handler leaves the frame, and `reti` pops it. -/
theorem returnRestoresTheInterruptedProgram : Obligations.ReturnRestoresTheInterruptedProgram := by
  intro s t u sp hie hirq hram hstep husp hcfg hbytes
  have h : HoldsFrame s u := holdsFrame_of_step hie hirq hram hstep husp hcfg hbytes
  have habove : u.RamAbove (u.reg 14) 4 := by
    rw [h.sp]
    exact (ramAbove_of_ramBelow h.ram).mono (by decide)
  obtain ⟨v, hreti, hloaded, hsp, hsrp, hframe⟩ := returnPopsTheFrame u habove
    (by rw [h.base]; exact ramAbove_of_ramBelow (h.ram.mono (by decide)))
  rw [h.base] at hloaded hsp
  refine ⟨v, hreti, fun k hk => ?_, hsrp, ?_⟩
  · obtain hlow | hhigh := Nat.lt_or_ge k.val 14
    · exact (hloaded k hlow).trans (h.slot_reg hlow)
    · obtain rfl : k = 14 := Fin.ext (by omega)
      exact hsp.trans (poppedAt_pushedAt_self _ 13)
  · rw [h.poppedAt_sp (by decide), h.poppedAt_sp (by decide), h.sp, h.pc, h.ccUnpack_slot, h.a] at hframe
    exact hframe

/-! ## The suggested layout of the CC slot (R186) -/

theorem ccPackSuggested_toNat (cc : CC) : (ccPackSuggested cc).toNat =
    cc.n.toNat + 2 * cc.v.toNat + 4 * cc.z.toNat + 8 * cc.c.toNat + 16 * cc.c8.toNat + 32 * cc.z8.toNat +
      64 * cc.c16.toNat + 128 * cc.z16.toNat := by
  simp only [ccPackSuggested, toNat_append, BitVec.toNat_ofBool, BitVec.toNat_ofNat]
  omega

/-- The low byte of a word has the word's bits 0 to 7. -/
theorem getLsbD_and_lowByte (w : Word) {i : Nat} (hi : i < 8) : (w &&& 0xFF).getLsbD i = w.getLsbD i := by
  rw [BitVec.getLsbD_and]
  have hmask : (0xFF : Word).getLsbD i = true := by
    revert i
    decide
  rw [hmask, Bool.and_true]

theorem ccUnpackSuggested_lowByte (w : Word) : ccUnpackSuggested (w &&& 0xFF) = ccUnpackSuggested w := by
  simp only [ccUnpackSuggested, getLsbD_and_lowByte, Nat.reduceLT]

/-- Settles O45: the round trip is that of every layout; here the packed word is the flags as binary digits,
and unpack reads the low byte alone. -/
theorem suggestedCcLayout : Obligations.SuggestedCcLayout := fun cc w =>
  ⟨ccUnpack_ccPack .suggested cc, ccPackSuggested_toNat cc, (ccUnpackSuggested_lowByte w).symm⟩

end Sys2Proof.Machine
end
